-- ==== Sys2Proof/Word.lean ====
section
/-! DEFINITION. The words of the block: bytes at its boundary, 24-bit commands, the 32-bit LFSR register. -/

namespace Sys2Proof

/-- Every operand and result that crosses the block's boundary is one unsigned byte (R7). -/
abbrev Byte := BitVec 8

/-- A command word `cmd[23:0]` (R70). Bit 0 is the least significant bit (R8). -/
abbrev Command := BitVec 24

/-- The 32-bit LFSR register value `R` (R31). -/
abbrev Word32 := BitVec 32

end Sys2Proof
end

