-- ==== Sys2Proof/Config.lean ====
section
/-! DEFINITION. What an implementation fixes: the open parameters of rule R5 and the fixed constants beside them. -/

namespace Sys2Proof

/-- The OPEN parameters of R5. Every value of this type is admitted and every admitted value is of this type:
`0 ≤ N ≤ 256`; `L` a power of two from 1 to 128; `FB` any 32-bit value with `FB[0] = 1`; `RNG_RESET` any. -/
structure Params where
  /-- `N`, the number of PWM channels. -/
  channelCount : Fin 257
  /-- `L` is two to this power. -/
  cycleLog2 : Fin 8
  /-- Bits 31 to 1 of `FB`; bit 0 is 1 (R6 (a)). -/
  feedbackHigh : BitVec 31
  /-- `RNG_RESET`, the LFSR register after reset. -/
  rngReset : Word32
  deriving DecidableEq, Repr

/-- `N` (R5). -/
def Params.numChannels (p : Params) : Nat := p.channelCount.val

/-- `L`, the cycle length in time units (R5). -/
def Params.cycleLength (p : Params) : Nat := 2 ^ p.cycleLog2.val

/-- `FB`, the 32-bit feedback constant (R5, R6). -/
def Params.feedback (p : Params) : Word32 := p.feedbackHigh ++ 1#1

/-! The values of this implementation's parameters: constants with no body, since the spec chooses none
(R5 "OPEN"; DESIGN CHOICE, log entries 1 and 2). -/

/-- `N` of this implementation. -/
opaque Config.channelCount : Fin 257
/-- The power of two that is `L` in this implementation. -/
opaque Config.cycleLog2 : Fin 8
/-- `FB[31:1]` of this implementation. -/
opaque Config.feedbackHigh : BitVec 31
/-- `RNG_RESET` of this implementation. -/
opaque Config.rngReset : Word32

/-- The parameters of this implementation. -/
def Config.params : Params where
  channelCount := Config.channelCount
  cycleLog2 := Config.cycleLog2
  feedbackHigh := Config.feedbackHigh
  rngReset := Config.rngReset

/-- The default cycle length is 16 time units, two to this power (R5). -/
def Config.defaultCycleLog2 : Fin 8 := 4

/-- `TU`, the length of one time unit in milliseconds (R5, D8). -/
def Config.timeUnitMs : Nat := 1

/-- `DUTY_RESET` (R5, D17). -/
def Config.dutyReset : Byte := 0x00

/-- `STARTUP`, the sentinel `elapsed` of the first call (R5, D6). -/
def Config.startup : Byte := 0xFF

/-- `SHUTDOWN`, the sentinel `elapsed` of the last call and the `next_wake` "this task is done" (R5, D6). -/
def Config.shutdown : Byte := 0x00

/-- `IDLE`, the `next_wake` "call me only when something else forces a cycle" (R5, D6). -/
def Config.idle : Byte := 0xFF

end Sys2Proof
end

