-- ==== Sys2Proof/Syntax.lean ====
section
/-! DEFINITION. The eight instructions of the opcode table (R77), one constructor per row. -/

namespace Sys2Proof

inductive Instr where
  /-- `pwm_set ch, duty` (R100). -/
  | pwmSet (ch duty : Byte)
  /-- `pwm_get ch` (R102). -/
  | pwmGet (ch : Byte)
  /-- `pwm_cycle STARTUP` (R108). -/
  | pwmCycleStartup
  /-- `pwm_cycle SHUTDOWN` (R110). -/
  | pwmCycleShutdown
  /-- `pwm_cycle elapsed` (R104). -/
  | pwmCycle (elapsed : Byte)
  /-- `rng_pump` (R130). -/
  | rngPump
  /-- `rng_add_entropy byte` (R136). -/
  | rngAddEntropy (entropy : Byte)
  /-- `rng_get maximum` (R140). -/
  | rngGet (maximum : Byte)
  deriving DecidableEq, Repr

end Sys2Proof
end

