-- ==== Sys2Proof/WellFormed.lean ====
section
/-! DEFINITION. Which terms of `Instr` are instructions: the operand domains of rules R73 and R74. -/

namespace Sys2Proof

/-- Every operand may be any byte, but for a real elapsed time: it is neither sentinel (R74, R77 row 5). -/
def Instr.wellFormed : Instr → Bool
  | .pwmSet _ _ => true
  | .pwmGet _ => true
  | .pwmCycleStartup => true
  | .pwmCycleShutdown => true
  | .pwmCycle elapsed => elapsed != Config.shutdown && elapsed != Config.startup
  | .rngPump => true
  | .rngAddEntropy _ => true
  | .rngGet _ => true

end Sys2Proof
end

