-- ==== Sys2Proof/Decode.lean ====
section
/-! DEFINITION. The command word's fields, the opcode table, the decoder and the encoder (rules R70 to R81). -/

namespace Sys2Proof

/-- `op = cmd[23:16]` (R70). -/
def opField (w : Command) : Byte := w.extractLsb' 16 8

/-- `a = cmd[15:8]` (R70). -/
def aField (w : Command) : Byte := w.extractLsb' 8 8

/-- `b = cmd[7:0]` (R70). -/
def bField (w : Command) : Byte := w.extractLsb' 0 8

/-- The word with these three fields (R70). -/
def commandWord (op a b : Byte) : Command := op ++ a ++ b

/-- A row of the opcode table (R77). -/
structure Row where
  mnemonic : String
  matchBits : Command
  maskBits : Command
  /-- The side condition on field `a`. -/
  side : Byte → Bool
  /-- The instruction with operand bytes `a` and `b`. -/
  build : Byte → Byte → Instr

/-- A row selects a word when `(cmd and mask) = match` and its side condition holds (R72). -/
def Row.selects (r : Row) (w : Command) : Bool :=
  (w &&& r.maskBits) == r.matchBits && r.side (aField w)

/-- The opcode table, in the order of R77. -/
def opcodeRows : List Row :=
  [ ⟨"pwm_set", 0x010000, 0xFF0000, fun _ => true, fun a b => .pwmSet a b⟩,
    ⟨"pwm_get", 0x020000, 0xFF00FF, fun _ => true, fun a _ => .pwmGet a⟩,
    ⟨"pwm_cycle.startup", 0x03FF00, 0xFFFFFF, fun _ => true, fun _ _ => .pwmCycleStartup⟩,
    ⟨"pwm_cycle.shutdown", 0x030000, 0xFFFFFF, fun _ => true, fun _ _ => .pwmCycleShutdown⟩,
    ⟨"pwm_cycle", 0x030000, 0xFF00FF, fun a => decide (0x01 ≤ a ∧ a ≤ 0xFE), fun a _ => .pwmCycle a⟩,
    ⟨"rng_pump", 0x100000, 0xFFFFFF, fun _ => true, fun _ _ => .rngPump⟩,
    ⟨"rng_add_entropy", 0x110000, 0xFF00FF, fun _ => true, fun a _ => .rngAddEntropy a⟩,
    ⟨"rng_get", 0x120000, 0xFF00FF, fun _ => true, fun a _ => .rngGet a⟩ ]

/-- The opcodes that are not reserved (R76, R78). -/
def definedOpcodes : List Byte := [0x01, 0x02, 0x03, 0x10, 0x11, 0x12]

/-- Why a word is reserved. -/
inductive Reserved where
  /-- Its opcode is reserved (R78). -/
  | opcode
  /-- Its opcode is defined and a must-be-zero field is not zero (R79). -/
  | operandField
  deriving DecidableEq, Repr

/-- The decoder: the first row that selects the word, else the reason it is reserved (R72, R78, R79). It depends on no
state of the block. -/
def decode (w : Command) : Except Reserved Instr :=
  match opcodeRows.find? (fun r => r.selects w) with
  | some r => .ok (r.build (aField w) (bField w))
  | none => .error (if definedOpcodes.contains (opField w) then .operandField else .opcode)

/-- The encoder: the one word of an instruction (R73, R77, R79). -/
def encode : Instr → Command
  | .pwmSet ch duty => commandWord 0x01 ch duty
  | .pwmGet ch => commandWord 0x02 ch 0x00
  | .pwmCycleStartup => commandWord 0x03 Config.startup 0x00
  | .pwmCycleShutdown => commandWord 0x03 Config.shutdown 0x00
  | .pwmCycle elapsed => commandWord 0x03 elapsed 0x00
  | .rngPump => commandWord 0x10 0x00 0x00
  | .rngAddEntropy entropy => commandWord 0x11 entropy 0x00
  | .rngGet maximum => commandWord 0x12 maximum 0x00

/-- The low `nbits` bits of the number `w` as a command word, where they fit in one. A command is ONE word of 24 bits
(R70, R81), so the opcode table's numbering of bits is the word's own. -/
def tableCommand (nbits w : Nat) : Option Command :=
  let v := w % 2 ^ nbits
  if v < 2 ^ 24 then some (BitVec.ofNat 24 v) else none

/-- The instruction the decoder reads from the bits `w` of an opcode-table row. -/
def decodeTableWord (nbits w : Nat) : Option Instr :=
  match tableCommand nbits w with
  | none => none
  | some word =>
    match decode word with
    | .ok i => some i
    | .error _ => none

end Sys2Proof
end

