-- ==== Sys2Proof/Machine/State.lean ====
section
/-! DEFINITION. The state of the block (10_state.md), its reset values (R38), and the reasons a step can stop. -/

namespace Sys2Proof.Machine

/-- The state of an output pin (R27). -/
inductive Pin where
  /-- Not driven, high-impedance. -/
  | unused
  /-- Configured as an output, driving the inactive level. -/
  | off
  /-- Configured as an output, driving the active level. -/
  | on
  deriving DecidableEq, Repr

/-- The PWM Engine's place in its session (R28). -/
inductive Phase where
  /-- No STARTUP call since reset. -/
  | pre
  /-- The STARTUP call has been executed and the SHUTDOWN call has not. -/
  | run
  /-- The SHUTDOWN call has been executed. -/
  | halt
  deriving DecidableEq, Repr

/-- One input of the block (R71): the reset event (R230) or a command word presented by the host. -/
inductive HostInput where
  | reset
  | command (w : Command)
  deriving DecidableEq, Repr

/-- The channel space's contents (R50): (index, byte) pairs, in the canonical form of `Memory.wf`. An index not listed
holds `DUTY_RESET` (R38). -/
abbrev Memory := List Host.Cell

/-- The state tuple of 10_state.md, the parameters of R5, and the interface of R71. -/
structure State where
  /-- `duty[0..N-1]` (R20). -/
  duty : Memory
  /-- `tick`, the position in the PWM cycle, `0 .. L-1` (R26). -/
  tick : Nat
  /-- `pin[0..N-1]`, the outputs (R27), channel 0 first. -/
  pin : List Pin
  /-- `phase` (R28). -/
  phase : Phase
  /-- `R = r[3] : r[2] : r[1] : r[0]` (R31). -/
  lfsr : Word32
  /-- The arguments of the step function `N`, `L`, `FB`, `RNG_RESET` (R5); no step changes them (log entry 1). -/
  params : Params
  /-- The MODEL's own: the host's inputs not yet presented, oldest first (R71; log entry 4). -/
  inbox : List HostInput
  /-- The MODEL's own: the result byte last returned (R70, R71), none before any command has returned (log entry 6). -/
  result : Option Byte
  deriving DecidableEq, Repr

/-- Why the machine stops with a fault. The block has no trap (R200); the one entry is a hang. -/
inductive Fault where
  /-- Raised by `rng_get` alone: its rejection loop accepts no candidate, ever, so the command never returns and the
  host is stalled for good (R144 (c), U6 "stuck"). SAFE: no result is invented, and it is raised exactly then
  (log entry 9). -/
  | rngGetNeverReturns
  deriving DecidableEq, Repr

/-- Why the model gives a command no step (`refuse`, R12). Nothing is recorded in the block's state (R202). -/
inductive Refusal where
  /-- Raised by `exec` for an instruction that has no meaning yet. No arm raises it. SAFE. -/
  | notModelled (mnemonic : String)
  /-- Raised by `step`: the word's opcode is reserved (R78). SAFE. -/
  | reservedOpcode
  /-- Raised by `step`: a must-be-zero field of the word is not zero (R79). SAFE. -/
  | reservedOperandField
  /-- Raised by `pwm_cycle.startup` in phase RUN or HALT (R112). SAFE. -/
  | startupOutsidePre
  /-- Raised by `pwm_cycle` in phase PRE or HALT (R112). SAFE. -/
  | cycleOutsideRun
  /-- Raised by `pwm_cycle.shutdown` in phase PRE or HALT (R112). SAFE. -/
  | shutdownOutsideRun
  deriving DecidableEq, Repr

/-- The block with parameters `p` right after reset (R38), nothing presented and nothing returned. -/
def State.resetWith (p : Params) : State where
  duty := []
  tick := 0
  pin := List.replicate p.numChannels .unused
  phase := .pre
  lfsr := p.rngReset
  params := p
  inbox := []
  result := none

/-- This implementation right after reset (R38). -/
def State.reset : State := State.resetWith Config.params

end Sys2Proof.Machine
end

