-- ==== Sys2Proof/Machine/Flags.lean ====
section
/-! DEFINITION. The block has no flag, no condition code and no predicate (R25), and every comparison is unsigned
(R8). The two conditions its rules compute stand here; neither is stored. -/

namespace Sys2Proof.Machine

/-- The comparison that turns a duty into an output: strict, so that equality means OFF (R105, R117). -/
def isOn (duty threshold : Nat) : Bool := decide (threshold < duty)

/-- The acceptance test of rejection sampling, `v <= maximum` (R140, R141). -/
def accepts (candidate maximum : Byte) : Bool := decide (candidate ≤ maximum)

end Sys2Proof.Machine
end

