-- ==== Sys2Proof/Machine/Operands.lean ====
section
/-! DEFINITION. The operand forms (R73): every operand is a whole field, an unsigned byte, zero-extended where a rule
needs more bits. None is sign-extended, scaled or shifted. -/

namespace Sys2Proof.Machine

/-- A channel operand: an index of the channel space, 0 .. 255 (R50). -/
def channelIndex (ch : Byte) : Nat := ch.toNat

/-- A real elapsed time, in milliseconds and so in time units: one time unit is 1 ms (R104, R113). -/
def elapsedTicks (elapsed : Byte) : Nat := elapsed.toNat

/-- A duty value as a number (R21). -/
def dutyValue (duty : Byte) : Nat := duty.toNat

/-- The entropy byte in each of the four register bytes: `byte : byte : byte : byte` (R136). -/
def entropyWord (entropy : Byte) : Word32 := entropy ++ entropy ++ entropy ++ entropy

/-- A number of milliseconds in 1 .. 254 as a `next_wake` byte (R75). -/
def wakeByte (ms : Nat) : Byte := BitVec.ofNat 8 ms

end Sys2Proof.Machine
end

