-- ==== Sys2Proof/Machine/Ops.lean ====
section
/-! DEFINITION. The named operations the meanings share: the channel space (20_memory.md), the PWM Engine's helper
functions (R105 to R107), the LFSR register (R130 to R142), the result byte, and the host's inputs.

There is no operation for taking an exception: the block has none, saves nothing and returns from nothing
(R200, R206, R207). -/

namespace Sys2Proof.Machine

/-! ### The channel space -/

/-- The canonical form: indices strictly rising, and no entry equal to what an unlisted index holds. -/
abbrev Memory.wf (m : Memory) : Prop :=
  m.Pairwise (fun x y => x.1 < y.1) ∧ ∀ e ∈ m, e.2 ≠ Config.dutyReset

/-- The byte at an index; an unlisted index holds `DUTY_RESET` (R38). -/
def Memory.read : Memory → Nat → Byte
  | [], _ => Config.dutyReset
  | (i, v) :: rest, c => if i = c then v else Memory.read rest c

/-- The memory without its entry for index `c`. -/
def Memory.erase (m : Memory) (c : Nat) : Memory := m.filter fun e => e.1 != c

/-- The memory with the entry `(c, v)` put before the first greater index. -/
def Memory.insert : Memory → Nat → Byte → Memory
  | [], c, v => [(c, v)]
  | (i, w) :: rest, c, v => if c < i then (c, v) :: (i, w) :: rest else (i, w) :: Memory.insert rest c v

/-- The memory with byte `v` at index `c`. Writing what an unlisted index holds removes the entry. -/
def Memory.write (m : Memory) (c : Nat) (v : Byte) : Memory :=
  if v = Config.dutyReset then Memory.erase m c else Memory.insert (Memory.erase m c) c v

/-- `MemRead(c, 1)`: the duty register of a backed channel, 0x00 for any other index (R51). -/
def State.channelRead (s : State) (c : Nat) : Byte :=
  if c < s.params.numChannels then Memory.read s.duty c else 0x00

/-- `MemWrite(c, 1, v)`: stores in the duty register of a backed channel, changes nothing for any other index (R52). -/
def State.channelWrite (s : State) (c : Nat) (v : Byte) : State :=
  { s with duty := if c < s.params.numChannels then Memory.write s.duty c v else s.duty }

/-! ### The result byte -/

/-- `result <- v`: the byte the command returns to the host (R9, R70). -/
def State.answer (s : State) (v : Byte) : State := { s with result := some v }

/-- The result of an operation the document gives none (R70, D4). -/
def noResult : Byte := 0x00

/-! ### The PWM Engine -/

/-- The duties of channels `0 .. N-1`, channel 0 first. -/
def State.duties (s : State) : List Nat :=
  (List.range s.params.numChannels).map fun c => dutyValue (s.channelRead c)

/-- `Threshold(t) = min(255, (256 * t) div L)` (R105). -/
def threshold (p : Params) (t : Nat) : Nat := min 255 (256 * t / p.cycleLength)

/-- What `UpdatePins(t)` drives on the pins: ON where the duty exceeds the threshold, else OFF (R105). -/
def State.pinsAt (s : State) (t : Nat) : List Pin :=
  s.duties.map fun d => if isOn d (threshold s.params t) then .on else .off

/-- `S`, the duties of the channels that are ON at tick `t` (R106). -/
def State.onDuties (s : State) (t : Nat) : List Nat :=
  s.duties.filter fun d => isOn d (threshold s.params t)

/-- `NextTick(t)`: the first tick at which the ON channel of least duty goes OFF, or the wrap (R106). -/
def State.nextTick (s : State) (t : Nat) : Nat :=
  match (s.onDuties t).min? with
  | some m => (m * s.params.cycleLength + 255) / 256
  | none => s.params.cycleLength

/-- `NextWake(t) = max(1, (NextTick(t) - t) * TU)` (R107). -/
def State.nextWake (s : State) (t : Nat) : Nat := max 1 ((s.nextTick t - t) * Config.timeUnitMs)

/-- The tick after `elapsed` more time units, modulo the cycle length (R104). -/
def State.tickAfter (s : State) (elapsed : Byte) : Nat :=
  (s.tick + elapsedTicks elapsed) % s.params.cycleLength

/-- `tick <- t`, `UpdatePins(t)`, `result <- NextWake(t)`, with `phase <- RUN` (R104, R108). All pins take their new
value together (D30). -/
def State.runTick (s : State) (t : Nat) : State :=
  { s with tick := t, pin := s.pinsAt t, phase := .run, result := some (wakeByte (s.nextWake t)) }

/-- `phase <- HALT`, every pin UNUSED (R110). -/
def State.releasePins (s : State) : State :=
  { s with pin := List.replicate s.params.numChannels .unused, phase := .halt }

/-! ### The LFSR register -/

/-- Byte `r[i]` of a 32-bit value, `R[8i+7 : 8i]` (R31). -/
def wordByte (r : Word32) (i : Nat) : Byte := r.extractLsb' (8 * i) 8

/-- `r[i]` of the register (R31). -/
def State.lfsrByte (s : State) (i : Nat) : Byte := wordByte s.lfsr i

/-- `r[3]`, the most significant and "top" byte (R31). -/
def topByte (r : Word32) : Byte := wordByte r 3

/-- `Pump(S)`: shift left by one bit; where the bit shifted out is 1, XOR the feedback constant in (R130). -/
def pump (fb r : Word32) : Word32 :=
  if r.getLsbD 31 then (r <<< 1) ^^^ fb else r <<< 1

/-- `n` applications of `Pump` (R138). -/
def pumpTimes (fb : Word32) : Nat → Word32 → Word32
  | 0, r => r
  | n + 1, r => pumpTimes fb n (pump fb r)

/-- `R <- r`. -/
def State.setLfsr (s : State) (r : Word32) : State := { s with lfsr := r }

/-- The zero correction: an all-zero register gets the top bit of its most significant byte (R137). -/
def zeroCorrection (r : Word32) : Word32 := if r = 0 then 0x80000000 else r

/-- `Mask(m)`: the smallest value of the form `2^k - 1` that is `>= m` (R142). -/
def rejectionMask (maximum : Byte) : Byte :=
  match (List.range 9).find? fun k => decide (maximum.toNat ≤ 2 ^ k - 1) with
  | some k => BitVec.ofNat 8 (2 ^ k - 1)
  | none => 0xFF

/-- The candidate a register value gives: its masked top byte (R140, R141). -/
def candidate (maximum : Byte) (r : Word32) : Byte := topByte r &&& rejectionMask maximum

/-- The rejection loop: pump, then take the candidate, until one is accepted (R140, R141). The register value that
gave the accepted candidate, or none where the first `fuel` candidates are all rejected. -/
def drawUntilAccepted (fb : Word32) (maximum : Byte) : Nat → Word32 → Option Word32
  | 0, _ => none
  | fuel + 1, r =>
    let r' := pump fb r
    if accepts (candidate maximum r') maximum then some r' else drawUntilAccepted fb maximum fuel r'

/-- The number of register values. A loop that has rejected this many candidates in a row repeats itself for ever, so
this fuel loses no run that returns (R144; log entry 9). -/
def registerValues : Nat := 2 ^ 32

/-! ### The host's inputs -/

/-- The reset event: every state element at its reset value, whatever it held before (R230). The parameters are no
state and the inputs still to come are the host's, so both stay. -/
def State.resetEvent (s : State) : State := { State.resetWith s.params with inbox := s.inbox }

/-- The input presented to the block now, with the state in which it has been taken; none where the host presents
nothing (R11, R71). -/
def State.takeInput (s : State) : Option (HostInput × State) :=
  match s.inbox with
  | [] => none
  | x :: rest => some (x, { s with inbox := rest })

/-- The host presents the command `w` next. -/
def State.present (s : State) (w : Command) : State := { s with inbox := .command w :: s.inbox }

/-- The refusal of a reserved word (R78, R79). -/
def reservedRefusal : Reserved → Refusal
  | .opcode => .reservedOpcode
  | .operandField => .reservedOperandField

end Sys2Proof.Machine
end

