-- ==== Sys2Proof/Machine/Pwm.lean ====
section
/-! DEFINITION. The PWM Engine's instructions (40_pwm.md). None writes a flag or raises an exception. -/

namespace Sys2Proof.Machine

/-- `pwm_set ch, duty` (R100, R101), in every phase. -/
def execPwmSet (ch duty : Byte) (s : State) : Host.Outcome State Fault Refusal :=
  .next ((s.channelWrite (channelIndex ch) duty).answer noResult)

/-- `pwm_get ch` (R102), in every phase. -/
def execPwmGet (ch : Byte) (s : State) : Host.Outcome State Fault Refusal :=
  .next (s.answer (s.channelRead (channelIndex ch)))

/-- `pwm_cycle STARTUP` (R108): the session begins at tick 0; the duties are kept. In phase PRE alone (R112). -/
def execPwmCycleStartup (s : State) : Host.Outcome State Fault Refusal :=
  match s.phase with
  | .pre => .next (s.runTick 0)
  | .run => .refused .startupOutsidePre
  | .halt => .refused .startupOutsidePre

/-- `pwm_cycle SHUTDOWN` (R110, R111): the pins are released; duties and tick are kept. In phase RUN alone (R112). -/
def execPwmCycleShutdown (s : State) : Host.Outcome State Fault Refusal :=
  match s.phase with
  | .pre => .refused .shutdownOutsideRun
  | .run => .next (s.releasePins.answer Config.shutdown)
  | .halt => .refused .shutdownOutsideRun

/-- `pwm_cycle elapsed` (R104). In phase RUN alone (R112). -/
def execPwmCycle (elapsed : Byte) (s : State) : Host.Outcome State Fault Refusal :=
  match s.phase with
  | .pre => .refused .cycleOutsideRun
  | .run => .next (s.runTick (s.tickAfter elapsed))
  | .halt => .refused .cycleOutsideRun

end Sys2Proof.Machine
end

