-- ==== Sys2Proof/Machine/Random.lean ====
section
/-! DEFINITION. The Random Generator's instructions (41_random.md). Each means the same in every phase (R148); none
writes a flag or raises an exception. -/

namespace Sys2Proof.Machine

/-- `rng_pump` (R130). -/
def execRngPump (s : State) : Host.Outcome State Fault Refusal :=
  .next ((s.setLfsr (pump s.params.feedback s.lfsr)).answer noResult)

/-- `rng_add_entropy byte` (R136): XOR into all four bytes, the zero correction (R137), eight pumps (R138). -/
def execRngAddEntropy (entropy : Byte) (s : State) : Host.Outcome State Fault Refusal :=
  .next ((s.setLfsr (pumpTimes s.params.feedback 8 (zeroCorrection (s.lfsr ^^^ entropyWord entropy)))).answer noResult)

/-- `rng_get maximum` (R140): one pump and 0 for a maximum of 0; else rejection sampling. A loop that never accepts
never returns (R144, U6). -/
def execRngGet (maximum : Byte) (s : State) : Host.Outcome State Fault Refusal :=
  if maximum = 0 then
    .next ((s.setLfsr (pump s.params.feedback s.lfsr)).answer 0x00)
  else
    match drawUntilAccepted s.params.feedback maximum registerValues s.lfsr with
    | some r => .next ((s.setLfsr r).answer (candidate maximum r))
    | none => .fault .rngGetNeverReturns

end Sys2Proof.Machine
end

