-- ==== Sys2Proof/Machine/Dispatch.lean ====
section
/-! DEFINITION. One arm per instruction: its meaning. -/

namespace Sys2Proof.Machine

/-- What one instruction does to the block (R77): one direct call of its meaning. -/
def exec (i : Instr) (s : State) : Host.Outcome State Fault Refusal :=
  match i with
  | .pwmSet ch duty => Sys2Proof.Machine.execPwmSet ch duty s
  | .pwmGet ch => Sys2Proof.Machine.execPwmGet ch s
  | .pwmCycleStartup => Sys2Proof.Machine.execPwmCycleStartup s
  | .pwmCycleShutdown => Sys2Proof.Machine.execPwmCycleShutdown s
  | .pwmCycle elapsed => Sys2Proof.Machine.execPwmCycle elapsed s
  | .rngPump => Sys2Proof.Machine.execRngPump s
  | .rngAddEntropy entropy => Sys2Proof.Machine.execRngAddEntropy entropy s
  | .rngGet maximum => Sys2Proof.Machine.execRngGet maximum s

end Sys2Proof.Machine
end

