-- ==== Sys2Proof/Machine/Step.lean ====
section
/-! DEFINITION. One step: the host presents one input, the block applies one rule (R11). -/

namespace Sys2Proof.Machine

/-- One step of the block. With nothing presented it waits and nothing changes (R11, R232); the reset event resets it
(R230); a command runs the instruction it decodes to, and a reserved word has no step (R78, R79). -/
def step (s : State) : Host.Outcome State Fault Refusal :=
  match s.takeInput with
  | none => .next s
  | some (.reset, s') => .next s'.resetEvent
  | some (.command w, s') =>
    match decode w with
    | .ok i => exec i s'
    | .error reason => .refused (reservedRefusal reason)

/-- The state in which the host presents, next, the command whose bits are the low `nbits` of `w`. -/
def State.withFetchWord (s : State) (nbits w : Nat) : State := s.present (BitVec.ofNat 24 (w % 2 ^ nbits))

end Sys2Proof.Machine
end

