-- ==== Sys2Proof/Machine/HostClients.lean ====
section
/-! DEFINITION. The clients of the block that the spec settles: the Fade Controller and the Twinkle Controller
(42_host_clients.md). The host is outside the block (R4): none of this is state or an instruction of it. What the spec
leaves open of the host (N32 to N36) is an argument here, so that claims hold for every choice (log entry 16). -/

namespace Sys2Proof.Machine

/-! ### What a client does to the block -/

/-- A procedure of the host with answer in `A`: it ends, or it issues one command, waits for the result byte, and goes
on as that byte tells it (R11 (b); duty H1 of R166). It reaches the block in no other way. -/
inductive Client (A : Type) where
  | done (answer : A)
  | issue (i : Instr) (next : Byte → Client A)

/-- The procedure that goes on with `g` where the first one ends. -/
def Client.bind {A B : Type} (g : A → Client B) : Client A → Client B
  | .done a => g a
  | .issue i next => .issue i fun v => Client.bind g (next v)

/-- The procedure with its answer changed. -/
def Client.map {A B : Type} (g : A → B) (p : Client A) : Client B := p.bind fun a => .done (g a)

/-- The commands of a list, whatever their results. -/
def Client.issueAll : List Instr → Client Unit
  | [] => .done ()
  | i :: rest => .issue i fun _ => Client.issueAll rest

/-- A procedure run against the block: its answer and the state it leaves, or the stop of one of its commands. -/
def Client.run {A : Type} : Client A → State → Host.Outcome (A × State) Fault Refusal
  | .done a, s => .next (a, s)
  | .issue i next, s =>
    match exec i s with
    | .next t => Client.run (next (t.result.getD noResult)) t
    | .fault f => .fault f
    | .refused r => .refused r

/-- The commands a procedure issues when it is run against the block, the one it stops at included. -/
def Client.trace {A : Type} : Client A → State → List Instr
  | .done _, _ => []
  | .issue i next, s =>
    i :: match exec i s with
      | .next t => Client.trace (next (t.result.getD noResult)) t
      | .fault _ => []
      | .refused _ => []

/-- Every command a procedure may issue, whatever results it gets, is one of `allowed`. -/
def Client.IssuesOnly {A : Type} (allowed : Instr → Bool) : Client A → Prop
  | .done _ => True
  | .issue i next => allowed i = true ∧ ∀ v, Client.IssuesOnly allowed (next v)

/-- The commands by which the Fade and the Twinkle Controller reach the block: `pwm_set` and `pwm_get`. The Random
Generator's callers are the effect programs alone (R34), and the `cycle` invocation is the Scheduler's (R4 (1), R160). -/
def isChannelAccess : Instr → Bool
  | .pwmSet _ _ => true
  | .pwmGet _ => true
  | .pwmCycleStartup => false
  | .pwmCycleShutdown => false
  | .pwmCycle _ => false
  | .rngPump => false
  | .rngAddEntropy _ => false
  | .rngGet _ => false

/-! ### Fade Controller -/

/-- The fade state (R170). -/
structure FadeState where
  target : Byte
  /-- 0 pauses convergence. -/
  rate : Byte
  /-- `cycle_ms`; 0 means apply the target at once. -/
  period : Byte
  /-- The elapsed time the task has accumulated, in milliseconds. Its width is not stated (N32). -/
  accumulator : Nat
  deriving DecidableEq, Repr

/-- `set_target(value)`: stores its operand, issues no command (R171). -/
def FadeState.setTarget (f : FadeState) (value : Byte) : FadeState := { f with target := value }

/-- `set_rate(delta)` (R171). -/
def FadeState.setRate (f : FadeState) (delta : Byte) : FadeState := { f with rate := delta }

/-- `set_period(ms)` (R171). -/
def FadeState.setPeriod (f : FadeState) (ms : Byte) : FadeState := { f with period := ms }

/-- `adjust(p)`: one move of at most `rate` toward `target`, never past it (R172). -/
def FadeState.adjust (f : FadeState) (p : Byte) : Byte :=
  if p = f.target then f.target
  else if f.target < p then
    if p - f.target ≤ f.rate then f.target else p - f.rate
  else
    if f.target - p ≤ f.rate then f.target else p + f.rate

/-- `target` to every configured channel (R174). -/
def FadeState.snap (f : FadeState) (channels : List Byte) : List Instr := channels.map fun c => .pwmSet c f.target

/-- `adjust` applied to every configured channel: read the duty, adjust it, write it back. Answers whether some duty
changed (R175). -/
def FadeState.round (f : FadeState) : List Byte → Client Bool
  | [] => .done false
  | c :: rest =>
    .issue (.pwmGet c) fun d =>
      .issue (.pwmSet c (f.adjust d)) fun _ => (FadeState.round f rest).map fun changed => f.adjust d != d || changed

/-- The wake the Fade task asks for after a round: another in `period` ms if some duty changed, else IDLE (R175). -/
def FadeState.wakeAfterRound (f : FadeState) (changed : Bool) : Byte := if changed then f.period else Config.idle

/-- What the spec does not say of the Fade task (R174, R175, N32). The model chooses none of it: each is a free argument
(log entry 16). -/
structure FadeDetails where
  /-- The task's answer while the accumulator is below `period`. -/
  wakeBelowPeriod : FadeState → Byte
  /-- What the accumulator is reset to, given the fade state before the call and the elapsed time that reached
  `period`: zero, the excess, a saturated excess. -/
  accumulatorAfterReset : FadeState → Byte → Nat
  /-- What the accumulator holds after a call with `period = 0`, given the fade state before it and the elapsed time:
  kept, counted on, cleared (R174 does not say). It decides when the first round comes after a later `set_period`. -/
  accumulatorAfterSnap : FadeState → Byte → Nat
  /-- What the task does on its STARTUP and SHUTDOWN calls. -/
  onSentinel : Byte → FadeState → Client (Byte × FadeState)
  /-- Whatever it does there, it issues no command but `pwm_set` and `pwm_get`: no Random Generator operation (R34). -/
  onSentinel_issuesOnly : ∀ elapsed f, (onSentinel elapsed f).IssuesOnly isChannelAccess

/-- The Fade task with a real elapsed time: its answer is the wake and the fade state after (R174, R175). -/
def FadeState.cycleReal (f : FadeState) (details : FadeDetails) (channels : List Byte) (elapsed : Byte) :
    Client (Byte × FadeState) :=
  if f.period = 0 then
    (Client.issueAll (f.snap channels)).map fun _ =>
      (Config.idle, { f with accumulator := details.accumulatorAfterSnap f elapsed })
  else if f.accumulator + elapsedTicks elapsed < f.period.toNat then
    let waiting := { f with accumulator := f.accumulator + elapsedTicks elapsed }
    .done (details.wakeBelowPeriod waiting, waiting)
  else
    (f.round channels).map fun changed =>
      (f.wakeAfterRound changed, { f with accumulator := details.accumulatorAfterReset f elapsed })

/-- The Fade task, `cycle(elapsed) -> next_wake` (R163, R174, R175). -/
def FadeState.cycle (f : FadeState) (details : FadeDetails) (channels : List Byte) (elapsed : Byte) :
    Client (Byte × FadeState) :=
  if elapsed = Config.startup ∨ elapsed = Config.shutdown then details.onSentinel elapsed f
  else f.cycleReal details channels elapsed

/-! ### Twinkle Controller -/

/-- `dist(a, b)` on the ring of 256 points: the difference, or its bitwise complement where its top bit is set (R181). -/
def circularDistance (a b : Byte) : Byte :=
  let d := a - b
  if d.msb then ~~~ d else d

/-- `twinkle_duty(distance, brightness)` (R182). -/
def twinkleDuty (distance brightness : Byte) : Byte :=
  let d := distance.toNat
  let b := brightness.toNat
  if b ≤ d then 0
  else if d * 2 < b then 255
  else BitVec.ofNat 8 (255 - (256 * 2 * (d - b / 2)) / b)

/-- The build-time configuration of the Twinkle Controller (R180) and what the spec does not say of it. -/
structure Ring where
  /-- The configured channels, each with its fixed position on the ring. -/
  channels : List (Byte × Byte)
  /-- Whether the channel's position is the first argument of `dist` (not said: N34). -/
  channelFirst : Bool
  /-- Whether a setter called with the value already held recomputes (not said: N35). -/
  recomputesUnchanged : Bool
  deriving DecidableEq, Repr

/-- The distance of a channel at `position` from a light source at `light` (R181). -/
def Ring.distance (ring : Ring) (position light : Byte) : Byte :=
  if ring.channelFirst then circularDistance position light else circularDistance light position

/-- The twinkle state (R180). -/
structure TwinkleState where
  /-- The light source's place on the ring. -/
  position : Byte
  /-- Its brightness, and so its spread. -/
  brightness : Byte
  deriving DecidableEq, Repr

/-- The duty of a channel at `position` on the ring (R182). -/
def TwinkleState.dutyAt (t : TwinkleState) (ring : Ring) (position : Byte) : Byte :=
  twinkleDuty (ring.distance position t.position) t.brightness

/-- The commands that recompute every configured channel (R183). -/
def TwinkleState.refresh (t : TwinkleState) (ring : Ring) : List Instr :=
  ring.channels.map fun c => .pwmSet c.1 (t.dutyAt ring c.2)

/-- A change of the twinkle state to `t'`, with the recompute that follows before the setter returns (R183). -/
def TwinkleState.change (t t' : TwinkleState) (ring : Ring) : Client TwinkleState :=
  if t' = t ∧ ring.recomputesUnchanged = false then .done t
  else (Client.issueAll (t'.refresh ring)).map fun _ => t'

/-- `twinkle_set_position(pos)` (R180, R183). -/
def TwinkleState.setPosition (t : TwinkleState) (ring : Ring) (pos : Byte) : Client TwinkleState :=
  t.change { t with position := pos } ring

/-- `twinkle_set_brightness(b)` (R180, R183). -/
def TwinkleState.setBrightness (t : TwinkleState) (ring : Ring) (b : Byte) : Client TwinkleState :=
  t.change { t with brightness := b } ring

/-- `twinkle_get_position() -> pos`: the stored field, and no command (R180, R183). -/
def TwinkleState.getPosition (t : TwinkleState) : Client Byte := .done t.position

/-- `twinkle_get_brightness() -> b` (R180, R183). -/
def TwinkleState.getBrightness (t : TwinkleState) : Client Byte := .done t.brightness

end Sys2Proof.Machine
end

