-- ==== Sys2Proof/Machine/Scheduler.lean ====
section
/-! DEFINITION. The Scheduler (R160 to R165): the registered tasks, the epoch, the session loop. The host is outside the
block (R4); every procedure here is a `Client` of it. The real elapsed times come from the tick source, outside both
(R203), and are an argument. -/

namespace Sys2Proof.Machine

/-- A real elapsed time: 1 .. 254, neither sentinel (R74, R164). -/
abbrev RealElapsed := { elapsed : Byte // (Instr.pwmCycle elapsed).wellFormed = true }

/-- The host's own state: "one global" fade state, "one global" twinkle state (R170, R180), and whatever the effect
programs keep (R190). -/
structure HostState (E : Type) where
  fade : FadeState
  twinkle : TwinkleState
  effects : E

/-- A registered task: an opaque unit of periodic work, `cycle(elapsed) -> next_wake` (R160, R163). -/
inductive RegisteredTask (E : Type) where
  /-- The PWM Engine. -/
  | engine
  /-- The Fade Controller. -/
  | fade
  /-- An external effect task. Its procedure is arbitrary (R190). -/
  | effect (cycle : Byte → HostState E → Client (Byte × HostState E))

/-- A host, fixed at build time. -/
structure HostProgram (E : Type) where
  /-- The registered tasks in registration order, a task's slot being its place; no task is created or destroyed after
  registration (R160). The order is the build's. -/
  tasks : List (RegisteredTask E)
  /-- The channels the Fade Controller moves (R170). -/
  fadeChannels : List Byte
  /-- What the spec does not say of the Fade task. -/
  fadeDetails : FadeDetails
  /-- The Twinkle Controller's channels and their places on the ring (R180). -/
  ring : Ring

/-- The command that invokes the PWM Engine with an `elapsed` operand (R160, R74). -/
def cycleCommand (elapsed : Byte) : Instr :=
  if elapsed = Config.startup then .pwmCycleStartup
  else if elapsed = Config.shutdown then .pwmCycleShutdown
  else .pwmCycle elapsed

/-- One invocation of one task: its answer is its wake request and the host's state after (R160, R163). -/
def HostProgram.invoke {E : Type} (p : HostProgram E) (elapsed : Byte) (h : HostState E) :
    RegisteredTask E → Client (Byte × HostState E)
  | .engine => .issue (cycleCommand elapsed) fun wake => .done (wake, h)
  | .fade => (h.fade.cycle p.fadeDetails p.fadeChannels elapsed).map fun x => (x.1, { h with fade := x.2 })
  | .effect cycle => cycle elapsed h

/-- Every task of a list invoked in its order with the same `elapsed`: the wake requests, in that order (R161). -/
def HostProgram.invokeAll {E : Type} (p : HostProgram E) (elapsed : Byte) :
    List (RegisteredTask E) → HostState E → Client (List Byte × HostState E)
  | [], h => .done ([], h)
  | task :: rest, h =>
    (p.invoke elapsed h task).bind fun x =>
      (HostProgram.invokeAll p elapsed rest x.2).map fun y => (x.1 :: y.1, y.2)

/-- The sleep an epoch ends with: the minimum of the tasks' wake requests (R161). -/
def aggregateWakes : List Byte → Byte
  | [] => Config.idle
  | w :: rest => if w ≤ aggregateWakes rest then w else aggregateWakes rest

/-- One epoch: every registered task in registration order with the same `elapsed`; its answer is the aggregated wake
(R161). -/
def HostProgram.epoch {E : Type} (p : HostProgram E) (elapsed : Byte) (h : HostState E) :
    Client (Byte × HostState E) :=
  (p.invokeAll elapsed p.tasks h).map fun x => (aggregateWakes x.1, x.2)

/-- `twinkle_set_position(pos)` as an effect program calls it: no task, but synchronous (R183). -/
def HostProgram.setTwinklePosition {E : Type} (p : HostProgram E) (pos : Byte) (h : HostState E) :
    Client (HostState E) :=
  (h.twinkle.setPosition p.ring pos).map fun t => { h with twinkle := t }

/-- `twinkle_set_brightness(b)` as an effect program calls it (R183). -/
def HostProgram.setTwinkleBrightness {E : Type} (p : HostProgram E) (b : Byte) (h : HostState E) :
    Client (HostState E) :=
  (h.twinkle.setBrightness p.ring b).map fun t => { h with twinkle := t }

/-- Where the session loop stands. -/
inductive SessionPoint (E : Type) where
  /-- Asleep between two epochs, for `wake` milliseconds at most. -/
  | asleep (wake : Byte) (h : HostState E)
  /-- The aggregated wake was SHUTDOWN, every task has been invoked once more with SHUTDOWN, the loop has ended. -/
  | ended (h : HostState E)

/-- The session loop from an aggregated wake, through epochs with these elapsed times, "until the aggregated wake value
equals SHUTDOWN, at which point every task is invoked once more with SHUTDOWN" (R162).

DESIGN CHOICE (log entry 24): how the Scheduler tells STARTUP from an aggregated 0xFF is open (R164 "e.g.", U5). Here its
place in the program tells: STARTUP is passed by `session` alone, before the loop, an elapsed time is a `RealElapsed`, and
the aggregated wake is slept on as it stands, not decremented once as R164's example has it. -/
def HostProgram.loop {E : Type} (p : HostProgram E) :
    List RealElapsed → Byte → HostState E → Client (SessionPoint E)
  | [], wake, h =>
    if wake = Config.shutdown then (p.epoch Config.shutdown h).map fun x => .ended x.2
    else .done (.asleep wake h)
  | elapsed :: rest, wake, h =>
    if wake = Config.shutdown then (p.epoch Config.shutdown h).map fun x => .ended x.2
    else (p.epoch elapsed.1 h).bind fun x => HostProgram.loop p rest x.1 x.2

/-- A session: every task once with STARTUP, then the loop (R162). The elapsed times are those of the epochs after it,
as far as the session gets through them. They may be any: that none is later than asked (H5 of R166) is soft, "as far as
its sleep allows", and is said of a run by `RunHistory.WakesInTime`. -/
def HostProgram.session {E : Type} (p : HostProgram E) (elapsed : List RealElapsed) (h : HostState E) :
    Client (SessionPoint E) :=
  (p.epoch Config.startup h).bind fun x => p.loop elapsed x.1 x.2

/-- A whole session in commands of the `pwm_cycle` family, with the elapsed times of its epochs (R162). -/
def sessionCommands (elapsed : List RealElapsed) : List Instr :=
  .pwmCycleStartup :: (elapsed.map (fun e => .pwmCycle e.1) ++ [.pwmCycleShutdown])

end Sys2Proof.Machine
end

