-- ==== Sys2Proof/Machine/Observation.lean ====
section
/-! DEFINITION. What an observer of the block sees over a run: sequences of commands, the ON ticks of a duty (R114) and
the ON time of a pin (R119). Nothing here is state of the block. -/

namespace Sys2Proof

/-- Whether an instruction is one of the `pwm_cycle` family (R112). -/
def Instr.isCycleFamily : Instr → Bool
  | .pwmSet _ _ => false
  | .pwmGet _ => false
  | .pwmCycleStartup => true
  | .pwmCycleShutdown => true
  | .pwmCycle _ => true
  | .rngPump => false
  | .rngAddEntropy _ => false
  | .rngGet _ => false

end Sys2Proof

namespace Sys2Proof.Machine

/-- The instructions of a list, one after the other, from a state; stops at the first that has no next state. -/
def runInstrs : List Instr → State → Host.Outcome State Fault Refusal
  | [], s => .next s
  | i :: rest, s =>
    match exec i s with
    | .next t => runInstrs rest t
    | .fault f => .fault f
    | .refused r => .refused r

/-- `on_ticks(d)`: the number of ticks `t` in `0 .. L-1` with `d > Threshold(t)` (R114). -/
def onTicks (p : Params) (d : Nat) : Nat :=
  ((List.range p.cycleLength).filter fun t => isOn d (threshold p t)).length

/-- What lies between command `k` and command `k+1` of the `pwm_cycle` family (R119), other commands between the two or
not. -/
structure Interval where
  /-- `P_k`, the pins after command `k`: they hold until command `k+1`, since no other command moves a pin. -/
  pins : List Pin
  /-- The result of command `k`: the wake the engine asked for. -/
  asked : Option Byte
  /-- `e_(k+1)`, the operand of command `k+1` in milliseconds; that of the SHUTDOWN call is 0x00. -/
  elapsed : Byte
  deriving DecidableEq, Repr

/-- A run of the block as R119 sees it. -/
structure RunHistory where
  /-- The intervals between its `pwm_cycle`-family commands, oldest first. -/
  intervals : List Interval
  /-- The result of the last `pwm_cycle`-family command, none before the first. -/
  asked : Option Byte
  /-- The block's state now. -/
  state : State
  deriving DecidableEq, Repr

/-- The run that starts here. -/
def State.beginHistory (s : State) : RunHistory := ⟨[], none, s⟩

/-- The interval an instruction ends: a real elapsed time and the SHUTDOWN call end one; the STARTUP call is command 0
and ends none (R119). -/
def RunHistory.endedBy (h : RunHistory) : Instr → List Interval
  | .pwmSet _ _ => []
  | .pwmGet _ => []
  | .pwmCycleStartup => []
  | .pwmCycleShutdown => [⟨h.state.pin, h.asked, Config.shutdown⟩]
  | .pwmCycle elapsed => [⟨h.state.pin, h.asked, elapsed⟩]
  | .rngPump => []
  | .rngAddEntropy _ => []
  | .rngGet _ => []

/-- The run with one more instruction, which led to `t`. -/
def RunHistory.record (h : RunHistory) (i : Instr) (t : State) : RunHistory where
  intervals := h.intervals ++ h.endedBy i
  asked := if i.isCycleFamily then t.result else h.asked
  state := t

/-- The run continued with any instructions; stops at the first that has no next state. -/
def RunHistory.run : List Instr → RunHistory → Host.Outcome RunHistory Fault Refusal
  | [], h => .next h
  | i :: rest, h =>
    match exec i h.state with
    | .next t => RunHistory.run rest (h.record i t)
    | .fault f => .fault f
    | .refused r => .refused r

/-- The milliseconds of some intervals. -/
def window : List Interval → Nat
  | [] => 0
  | i :: rest => elapsedTicks i.elapsed + window rest

/-- The milliseconds of some intervals for which pin `c` is ON. -/
def onTime (c : Nat) : List Interval → Nat
  | [] => 0
  | i :: rest => (if i.pins[c]? = some .on then elapsedTicks i.elapsed else 0) + onTime c rest

/-- `Window(K)` of the run (R119). -/
def RunHistory.window (h : RunHistory) (k : Nat) : Nat := Machine.window (h.intervals.take k)

/-- `OnTime(c, K)` of the run (R119). -/
def RunHistory.onTime (h : RunHistory) (c k : Nat) : Nat := Machine.onTime c (h.intervals.take k)

/-- The host invoked the engine no later than it asked: each real elapsed time is at most the result of the
`pwm_cycle`-family command before it (duty H5 of R166). Earlier is its liberty (H6). The duty is soft: no meaning depends
on it, and a run that breaks it is a run all the same (R243). -/
def RunHistory.WakesInTime (h : RunHistory) : Prop :=
  ∀ i ∈ h.intervals, i.elapsed ≠ Config.shutdown → ∃ wake, i.asked = some wake ∧ i.elapsed ≤ wake

/-- The host invoked the engine exactly when it asked: each real elapsed time is the result of the `pwm_cycle`-family
command before it (R120 (ii)). -/
def RunHistory.FollowsWakes (h : RunHistory) : Prop :=
  ∀ i ∈ h.intervals, i.elapsed ≠ Config.shutdown → i.asked = some i.elapsed

end Sys2Proof.Machine
end

