-- ==== Sys2Proof/Safety.lean ====
section
/-! DEFINITION. The terms claims use: the state invariant, the order of a session, the named hypothesis on the
feedback constant. -/

namespace Sys2Proof

/-- Whether an instruction is one of the Random Generator's (41_random.md). -/
def Instr.isRandom : Instr → Bool
  | .pwmSet _ _ => false
  | .pwmGet _ => false
  | .pwmCycleStartup => false
  | .pwmCycleShutdown => false
  | .pwmCycle _ => false
  | .rngPump => true
  | .rngAddEntropy _ => true
  | .rngGet _ => true

end Sys2Proof

namespace Sys2Proof.Machine

/-- What the spec says of every state the block can be in. -/
structure State.Inv (s : State) : Prop where
  /-- The channel space keeps its canonical form. -/
  duty_wf : Memory.wf s.duty
  /-- Only backed locations hold a byte (R50, R52). -/
  duty_backed : ∀ e ∈ s.duty, e.1 < s.params.numChannels
  /-- `tick` is one of `0 .. L-1` (R26). -/
  tick_lt : s.tick < s.params.cycleLength
  /-- There is one pin per channel (R27). -/
  pin_count : s.pin.length = s.params.numChannels
  /-- In its session the engine drives every pin (R108). -/
  pins_driven : s.phase = .run → ∀ p ∈ s.pin, p ≠ .unused
  /-- Outside its session no pin is driven (R38, R110, R238 (2)). -/
  pins_released : s.phase ≠ .run → ∀ p ∈ s.pin, p = .unused
  /-- Before the STARTUP call the tick is still 0 (R26, R38). -/
  pre_tick : s.phase = .pre → s.tick = 0

/-- Real elapsed times, each in 1 .. 254, then at most one SHUTDOWN call, the last (R162). -/
def cyclesThenShutdown : List Instr → Bool
  | [] => true
  | .pwmCycle elapsed :: rest => (Instr.pwmCycle elapsed).wellFormed && cyclesThenShutdown rest
  | [.pwmCycleShutdown] => true
  | _ => false

/-- The order R162 gives the `pwm_cycle`-family commands of a session: none yet, or one STARTUP call first, then any
number of real elapsed times, then at most one SHUTDOWN call. The other commands may stand anywhere. -/
def sessionLegal (commands : List Instr) : Bool :=
  match commands.filter Instr.isCycleFamily with
  | [] => true
  | .pwmCycleStartup :: rest => cyclesThenShutdown rest
  | _ => false

/-- `m` is the smallest duty of a channel that is ON at tick `k`: "the smallest duty strictly greater than zero and
greater than the current threshold among ON channels" (R104, R106). -/
def State.IsLeastOnDuty (s : State) (k m : Nat) : Prop :=
  (∃ c, c < s.params.numChannels ∧ (s.channelRead c).toNat = m) ∧
  min 255 (256 * k / s.params.cycleLength) < m ∧
  ∀ c, c < s.params.numChannels →
    min 255 (256 * k / s.params.cycleLength) < (s.channelRead c).toNat → m ≤ (s.channelRead c).toNat

/-- No channel is ON at tick `k` (R106). -/
def State.NoChannelOn (s : State) (k : Nat) : Prop :=
  ∀ c, c < s.params.numChannels → (s.channelRead c).toNat ≤ min 255 (256 * k / s.params.cycleLength)

/-- `t` differs from `s` in its duty registers and its result at most. -/
structure State.SameButDuties (s t : State) : Prop where
  tick : t.tick = s.tick
  pin : t.pin = s.pin
  phase : t.phase = s.phase
  lfsr : t.lfsr = s.lfsr
  params : t.params = s.params
  inbox : t.inbox = s.inbox

/-- `t` is `s` after `tick <- k`, `UpdatePins(k)`, `result <- NextWake(k)` in phase RUN, and nothing else: the formulas
of R105, R106 and R107 written out, each of the block's other elements as it was. -/
structure State.RunsTick (s t : State) (k : Nat) : Prop where
  tick : t.tick = k
  phase : t.phase = .run
  pin_count : t.pin.length = s.params.numChannels
  pins : ∀ c, c < s.params.numChannels → t.pin[c]? =
    some (if min 255 (256 * k / s.params.cycleLength) < (s.channelRead c).toNat then .on else .off)
  wake_on : ∀ m, s.IsLeastOnDuty k m → ∃ w, t.result = some w ∧
    w.toNat = max 1 ((m * s.params.cycleLength + 255) / 256 - k)
  wake_wrap : s.NoChannelOn k → ∃ w, t.result = some w ∧ w.toNat = max 1 (s.params.cycleLength - k)
  duty : t.duty = s.duty
  lfsr : t.lfsr = s.lfsr
  params : t.params = s.params
  inbox : t.inbox = s.inbox

/-- The named hypothesis FB_PRIMITIVE (R6 (b)), in the form R144 (b) gives it: the register runs through all non-zero
values, from any non-zero value (PRESUMED from general knowledge, G2; log entry 22). -/
def FbMaximalLength (p : Params) : Prop :=
  ∀ r r' : Word32, r ≠ 0 → r' ≠ 0 → ∃ n, pumpTimes p.feedback n r = r'

end Sys2Proof.Machine
end

