-- ==== Sys2Proof/Certificates/Slice0/Obligations.lean ====
section
/-! DEFINITION. The statements for the provers, from the numbered rules of spec/. -/

open Sys2Proof Sys2Proof.Machine

/-! ### Encoding (30_encoding.md) -/

/-- Decode and encode agree: every well-formed instruction, with every operand at every value its encoding admits, is
what its word decodes to (R77, R79). -/
def Obligations.DecodeOfEncodeIsTheInstruction : Prop :=
  ∀ i : Instr, i.wellFormed = true → decode (encode i) = .ok i

/-- R79. A word with a defined opcode and a non-zero must-be-zero field is reserved and has no step; and encoding and
decoding are inverse: every instruction has exactly one word, and every word that is not reserved is the word of exactly
one instruction. -/
def Obligations.ReservedOperandFieldsHaveNoStep : Prop :=
  (∀ (w : Command) (s : State) (rest : List HostInput), s.inbox = .command w :: rest →
    (opField w ∈ [0x02, 0x03, 0x11, 0x12] ∧ bField w ≠ 0x00) ∨
      (opField w = 0x10 ∧ (aField w ≠ 0x00 ∨ bField w ≠ 0x00)) →
    decode w = .error .operandField ∧ step s = .refused .reservedOperandField) ∧
  (∀ i : Instr, i.wellFormed = true → ∃ w, decode w = .ok i ∧ ∀ w', decode w' = .ok i → w' = w) ∧
  (∀ w : Command, (∀ reason, decode w ≠ .error reason) →
    ∃ i, i.wellFormed = true ∧ decode w = .ok i ∧ encode i = w)

/-- R78. Every opcode but six is reserved; exactly the words with a reserved opcode are rejected for it, and such a word
has no step in any state. -/
def Obligations.ReservedOpcodesHaveNoStep : Prop :=
  (∀ w : Command, decode w = .error .opcode ↔ opField w ∉ [0x01, 0x02, 0x03, 0x10, 0x11, 0x12]) ∧
  (∀ (w : Command) (s : State) (rest : List HostInput), s.inbox = .command w :: rest →
    opField w ∉ [0x01, 0x02, 0x03, 0x10, 0x11, 0x12] → step s = .refused .reservedOpcode)

/-- R72. The rows of the opcode table are mutually exclusive once the side conditions are counted, the row that selects
a word gives its instruction, and a word that no row selects is reserved. -/
def Obligations.OpcodeRowsAreExclusive : Prop :=
  ∀ w : Command,
    (∀ r ∈ opcodeRows, ∀ r' ∈ opcodeRows, r.selects w = true → r'.selects w = true → r.mnemonic = r'.mnemonic) ∧
    (∀ r ∈ opcodeRows, r.selects w = true → decode w = .ok (r.build (aField w) (bField w))) ∧
    ((∀ r ∈ opcodeRows, r.selects w = false) → ∃ reason, decode w = .error reason)

/-- A few words written out from the encodings of R77 and what they stand for. -/
def Obligations.WrittenWordsDecode : Prop :=
  decode 0x0101C0 = .ok (.pwmSet 1 0xC0) ∧ decode 0x020300 = .ok (.pwmGet 3) ∧
  decode 0x03FF00 = .ok .pwmCycleStartup ∧ decode 0x030000 = .ok .pwmCycleShutdown ∧
  decode 0x03FE00 = .ok (.pwmCycle 254) ∧ decode 0x100000 = .ok .rngPump ∧
  decode 0x11A700 = .ok (.rngAddEntropy 0xA7) ∧ decode 0x12FF00 = .ok (.rngGet 255) ∧
  decode 0x020301 = .error .operandField ∧ decode 0x130000 = .error .opcode

/-! ### The step and reset -/

/-- A step runs the decoded instruction: when the command presented decodes to `i`, the step is `exec i` in the state
in which that command has been taken. -/
def Obligations.StepRunsTheDecodedInstruction : Prop :=
  ∀ (s : State) (w : Command) (i : Instr) (rest : List HostInput),
    s.inbox = .command w :: rest → decode w = .ok i → step s = exec i { s with inbox := rest }

/-- With nothing presented the block waits and nothing changes (R11, R232; the model's reading, log entry 5). -/
def Obligations.WaitingBlockDoesNotChange : Prop :=
  ∀ s : State, s.inbox = [] → step s = .next s

/-- R230. At the reset event every state element takes its reset value, whatever it held before; reset is the only way
out of phase HALT and the only way back to PRE from RUN. (The parameters are no state and stay: log entry 7.) -/
def Obligations.ResetEventResetsAndAloneLeavesHalt : Prop :=
  (∀ (s : State) (rest : List HostInput), s.inbox = .reset :: rest → ∃ t, step s = .next t ∧
    (∀ c, t.channelRead c = 0x00) ∧ t.tick = 0 ∧ t.pin = List.replicate s.params.numChannels .unused ∧
    t.phase = .pre ∧ t.lfsr = s.params.rngReset ∧ t.params = s.params) ∧
  (∀ s t : State, step s = .next t → s.phase = .halt → t.phase ≠ .halt → ∃ rest, s.inbox = .reset :: rest) ∧
  (∀ s t : State, step s = .next t → s.phase = .run → t.phase = .pre → ∃ rest, s.inbox = .reset :: rest)

/-- R38. The value of every state element after reset, whatever the parameters. -/
def Obligations.ResetValues : Prop :=
  (∀ p : Params, (∀ c, (State.resetWith p).channelRead c = 0x00) ∧ (State.resetWith p).tick = 0 ∧
    (State.resetWith p).pin = List.replicate p.numChannels .unused ∧ (State.resetWith p).phase = .pre ∧
    (State.resetWith p).lfsr = p.rngReset) ∧
  State.reset = State.resetWith Config.params

/-! ### Invariants -/

/-- The state after reset meets the invariant. -/
def Obligations.ResetMeetsTheInvariant : Prop :=
  (∀ p : Params, (State.resetWith p).Inv) ∧ State.reset.Inv

/-- Every step keeps the invariant: the duty array in canonical form and backed, the tick below `L`, one pin per
channel, the pins driven exactly in the session. -/
def Obligations.StepKeepsTheInvariant : Prop :=
  ∀ s t : State, s.Inv → step s = .next t → t.Inv

/-- The parameters never change (10_state.md, R20 "N is fixed for the life of the block"). -/
def Obligations.StepKeepsTheParameters : Prop :=
  ∀ s t : State, step s = .next t → t.params = s.params

/-- R32. The never-all-zero invariant in the form the rules establish: a non-zero register stays non-zero under every
Random Generator instruction; after `rng_add_entropy` it is non-zero whatever it was; reset may leave it zero, and from
zero `rng_pump` and `rng_get` leave it zero. -/
def Obligations.LfsrStaysNonZero : Prop :=
  (∀ s t : State, s.lfsr ≠ 0 → (exec .rngPump s = .next t ∨ (∃ m, exec (.rngGet m) s = .next t) ∨
    ∃ e, exec (.rngAddEntropy e) s = .next t) → t.lfsr ≠ 0) ∧
  (∀ (s : State) (e : Byte), ∃ t, exec (.rngAddEntropy e) s = .next t ∧ t.lfsr ≠ 0) ∧
  (∀ p : Params, p.rngReset = 0 → (State.resetWith p).lfsr = 0) ∧
  (∀ s : State, s.lfsr = 0 → (∃ t, exec .rngPump s = .next t ∧ t.lfsr = 0) ∧
    ∀ m, ∃ t, exec (.rngGet m) s = .next t ∧ t.lfsr = 0)

/-- The two halves of the block share no state: a Random Generator instruction neither reads nor writes the PWM
Engine's elements, and a PWM instruction neither reads nor writes the LFSR register (R34, R148). -/
def Obligations.HalvesShareNoState : Prop :=
  ∀ (i : Instr) (s t : State), exec i s = .next t →
    (i.isRandom = true → ∀ (d : Memory) (k : Nat) (ps : List Pin) (ph : Phase),
      exec i { s with duty := d, tick := k, pin := ps, phase := ph } =
        .next { t with duty := d, tick := k, pin := ps, phase := ph }) ∧
    (i.isRandom = false → ∀ r : Word32, exec i { s with lfsr := r } = .next { t with lfsr := r })

/-- Who writes what (R22, R26, R27, R28, R30, R33): the duty registers `pwm_set` alone; tick, pins and phase the
`pwm_cycle` family alone; the LFSR register the Random Generator's instructions alone; no instruction the parameters
or the inputs still to come. -/
def Obligations.ElementsAreWrittenByTheirInstructionsAlone : Prop :=
  ∀ (i : Instr) (s t : State), exec i s = .next t →
    ((∀ ch d, i ≠ .pwmSet ch d) → t.duty = s.duty) ∧
    (i.isCycleFamily = false → t.tick = s.tick ∧ t.pin = s.pin ∧ t.phase = s.phase) ∧
    (i.isRandom = false → t.lfsr = s.lfsr) ∧ t.params = s.params ∧ t.inbox = s.inbox

/-- Nothing in the block traps (R200): the only fault is the hang of `rng_get`, from a non-zero register and a non-zero
maximum (R144 (a), (c), R134; that non-return is answered as a fault is the model's reading, log entry 9); and the only
refusals are reserved words and the session protocol (R202). -/
def Obligations.StopsAreTheHangTheReservedWordsAndTheProtocol : Prop :=
  (∀ (i : Instr) (s : State) (f : Fault), exec i s = .fault f →
    f = .rngGetNeverReturns ∧ ∃ m, i = .rngGet m ∧ m ≠ 0 ∧ s.lfsr ≠ 0) ∧
  (∀ (s : State) (r : Refusal), step s = .refused r → ∃ w rest, s.inbox = .command w :: rest ∧
    ((decode w = .error .opcode ∧ r = .reservedOpcode) ∨
     (decode w = .error .operandField ∧ r = .reservedOperandField) ∨
     (decode w = .ok .pwmCycleStartup ∧ s.phase ≠ .pre ∧ r = .startupOutsidePre) ∨
     ((∃ e, decode w = .ok (.pwmCycle e)) ∧ s.phase ≠ .run ∧ r = .cycleOutsideRun) ∨
     (decode w = .ok .pwmCycleShutdown ∧ s.phase ≠ .run ∧ r = .shutdownOutsideRun)))

/-! ### The channel space (20_memory.md, R100 to R103) -/

/-- R100, R52. `pwm_set` completes in every state, for every index and duty: it stores in a backed duty register,
changes nothing for any other index, returns 0x00, and leaves every other element as it was. -/
def Obligations.PwmSetStoresTheDuty : Prop :=
  ∀ (ch d : Byte) (s : State), ∃ t, exec (.pwmSet ch d) s = .next t ∧ t.result = some 0x00 ∧
    (∀ c, t.channelRead c = if c = ch.toNat ∧ ch.toNat < s.params.numChannels then d else s.channelRead c) ∧
    (¬ ch.toNat < s.params.numChannels → t.duty = s.duty) ∧
    t.tick = s.tick ∧ t.pin = s.pin ∧ t.phase = s.phase ∧ t.lfsr = s.lfsr ∧ t.params = s.params ∧ t.inbox = s.inbox

/-- R102, R51. `pwm_get` completes in every state: it returns the duty register of a backed index and 0x00 for any
other, and changes no state. -/
def Obligations.PwmGetReturnsTheDuty : Prop :=
  ∀ (ch : Byte) (s : State), exec (.pwmGet ch) s = .next { s with
    result := some (if ch.toNat < s.params.numChannels then Memory.read s.duty ch.toNat else 0x00) }

/-- R103. `pwm_get c` returns the operand of the last `pwm_set c, d` before it, however many other commands lie between;
for `c >= N` `pwm_set` is a no-op and `pwm_get` returns 0. -/
def Obligations.GetReturnsTheLastSet : Prop :=
  (∀ (c d : Byte) (s : State), c.toNat < s.params.numChannels → ∃ t, exec (.pwmSet c d) s = .next t ∧
    ∀ (between : List Instr) (u : State), (∀ i ∈ between, ∀ d', i ≠ .pwmSet c d') →
      runInstrs between t = .next u → ∃ v, exec (.pwmGet c) u = .next v ∧ v.result = some d) ∧
  (∀ (c d : Byte) (s : State), ¬ c.toNat < s.params.numChannels →
    exec (.pwmSet c d) s = .next { s with result := some 0x00 } ∧
    exec (.pwmGet c) s = .next { s with result := some 0x00 })

/-- A channel-space write is idempotent, as equal states; a read is idempotent (R56). -/
def Obligations.ChannelAccessesAreIdempotent : Prop :=
  (∀ (ch d : Byte) (s t : State), exec (.pwmSet ch d) s = .next t → exec (.pwmSet ch d) t = .next t) ∧
  (∀ (ch : Byte) (s t : State), exec (.pwmGet ch) s = .next t → exec (.pwmGet ch) t = .next t)

/-! ### The PWM Engine (R104 to R120) -/

/-- R104 (with R105, R106, R107 written out). `pwm_cycle elapsed` in phase RUN completes for every elapsed time in
1..254: the tick advances by it modulo `L`, every pin is recomputed, the result is the wake time; every other element is
as it was. In any other phase it is refused. (The rules' own decisions D8 to D11, log entry 23, are followed.) -/
def Obligations.PwmCycleAdvancesTheCycle : Prop :=
  ∀ (e : Byte) (s : State), 1 ≤ e.toNat → e.toNat ≤ 254 →
    (s.phase = .run → ∃ t, exec (.pwmCycle e) s = .next t ∧
      s.RunsTick t ((s.tick + e.toNat) % s.params.cycleLength)) ∧
    (s.phase ≠ .run → exec (.pwmCycle e) s = .refused .cycleOutsideRun)

/-- R108. `pwm_cycle.startup` in phase PRE: phase RUN, tick 0, every pin driven by its duty, the wake time of a normal
call as the result; the duties are kept. In any other phase it is refused. (The rule's own decision D12 is followed:
log entry 23.) -/
def Obligations.StartupBeginsTheSession : Prop :=
  ∀ s : State,
    (s.phase = .pre → ∃ t, exec .pwmCycleStartup s = .next t ∧ s.RunsTick t 0) ∧
    (s.phase ≠ .pre → exec .pwmCycleStartup s = .refused .startupOutsidePre)

/-- R110. `pwm_cycle.shutdown` in phase RUN: phase HALT, every pin UNUSED, result 0x00, everything else kept. In any
other phase it is refused. -/
def Obligations.ShutdownReleasesThePins : Prop :=
  ∀ s : State,
    (s.phase = .run → exec .pwmCycleShutdown s = .next { s with
      phase := .halt, pin := List.replicate s.params.numChannels .unused, result := some 0x00 }) ∧
    (s.phase ≠ .run → exec .pwmCycleShutdown s = .refused .shutdownOutsideRun)

/-- R112. The session protocol's table for the `pwm_cycle` instructions (an elapsed time in 1..254), with the phase each
leads to; and the other instructions have their meaning in every phase: each answers a next state in that phase, but for
an `rng_get` that may never return (R144; log entry 9). -/
def Obligations.SessionProtocolTable : Prop :=
  (∀ s : State, (∃ t, exec .pwmCycleStartup s = .next t) ↔ s.phase = .pre) ∧
  (∀ s t : State, exec .pwmCycleStartup s = .next t → t.phase = .run) ∧
  (∀ (e : Byte) (s : State), (Instr.pwmCycle e).wellFormed = true →
    ((∃ t, exec (.pwmCycle e) s = .next t) ↔ s.phase = .run)) ∧
  (∀ (e : Byte) (s t : State), (Instr.pwmCycle e).wellFormed = true → exec (.pwmCycle e) s = .next t → t.phase = .run) ∧
  (∀ s : State, (∃ t, exec .pwmCycleShutdown s = .next t) ↔ s.phase = .run) ∧
  (∀ s t : State, exec .pwmCycleShutdown s = .next t → t.phase = .halt) ∧
  (∀ (i : Instr) (s : State), i.isCycleFamily = false →
    (∃ t, exec i s = .next t ∧ t.phase = s.phase) ∨
    ((∃ m, i = .rngGet m) ∧ exec i s = .fault .rngGetNeverReturns))

/-- The order R162 gives a session's commands is exactly the set of sequences R112 gives a meaning, among sequences of
instructions (each well-formed, so each real elapsed time in 1..254): from reset, a sequence in that order meets no
refusal, and a sequence out of it does not run to its end. -/
def Obligations.LegalSessionsAreTheOnesThatRun : Prop :=
  ∀ (p : Params) (commands : List Instr), (∀ i ∈ commands, i.wellFormed = true) →
    (sessionLegal commands = true → ∀ r, runInstrs commands (State.resetWith p) ≠ .refused r) ∧
    (sessionLegal commands = false → ∀ t, runInstrs commands (State.resetWith p) ≠ .next t)

/-- The threshold scaling is exact and its clamp never binds (R105, R116): for every tick of the cycle,
`Threshold(t) = t * (256 div L)`, at most 254. -/
def Obligations.ThresholdIsExact : Prop :=
  ∀ (p : Params) (t : Nat), t < p.cycleLength →
    threshold p t = 256 * t / p.cycleLength ∧ threshold p t = t * (256 / p.cycleLength) ∧ threshold p t ≤ 254

/-- R114 and R115. A duty is ON for `ceil(d*L/256)` ticks, the first ones of the cycle; 0 is always OFF and 255 always
ON; the ON part is never shorter than the ideal and longer by less than one tick. -/
def Obligations.OnTicksOfADuty : Prop :=
  ∀ (p : Params) (d : Nat), d ≤ 255 →
    onTicks p d = (d * p.cycleLength + 255) / 256 ∧
    (∀ t, t < p.cycleLength → (threshold p t < d ↔ t < onTicks p d)) ∧
    onTicks p 0 = 0 ∧ onTicks p 255 = p.cycleLength ∧
    d * p.cycleLength ≤ 256 * onTicks p d ∧ 256 * onTicks p d < d * p.cycleLength + 256

/-- What `NextTick` means (R106): it lies after the present tick and no later than the wrap; no pin changes at any tick
before it, and where it is not the wrap, some pin changes at it. -/
def Obligations.NextTickIsTheNextTransition : Prop :=
  ∀ (s : State) (k : Nat), k < s.params.cycleLength →
    k < s.nextTick k ∧ s.nextTick k ≤ s.params.cycleLength ∧
    (∀ u, k ≤ u → u < s.nextTick k → s.pinsAt u = s.pinsAt k) ∧
    (s.nextTick k < s.params.cycleLength → s.pinsAt (s.nextTick k) ≠ s.pinsAt k)

/-- The wake request of `pwm_cycle` and `pwm_cycle.startup` lies in 1 .. L, and is L exactly when the tick is 0 and no
ON channel goes OFF before the wrap (R118). -/
def Obligations.WakeRequestsLieInTheCycle : Prop :=
  ∀ (i : Instr) (s t : State), (i = .pwmCycleStartup ∨ ∃ e, i = .pwmCycle e) → i.wellFormed = true →
    exec i s = .next t →
    ∃ w, t.result = some w ∧ 1 ≤ w.toNat ∧ w.toNat ≤ s.params.cycleLength ∧
      (w.toNat = s.params.cycleLength ↔ t.tick = 0 ∧ (s.NoChannelOn t.tick ∨
        ∃ m, s.IsLeastOnDuty t.tick m ∧ (m * s.params.cycleLength + 255) / 256 = s.params.cycleLength))

/-- Only elapsed time modulo `L` matters, and an early invocation is harmless (R104, R243, R244): two invocations lead to
the state of any single one whose elapsed time is congruent to their sum. -/
def Obligations.EarlyInvocationsAreHarmless : Prop :=
  ∀ (s : State) (e e₁ e₂ : Byte), s.phase = .run → (Instr.pwmCycle e).wellFormed = true →
    (Instr.pwmCycle e₁).wellFormed = true → (Instr.pwmCycle e₂).wellFormed = true →
    (e₁.toNat + e₂.toNat) % s.params.cycleLength = e.toNat % s.params.cycleLength →
    ∃ t₁ t, exec (.pwmCycle e₁) s = .next t₁ ∧ exec (.pwmCycle e₂) t₁ = .next t ∧ exec (.pwmCycle e) s = .next t

/-- The steady-state duty law (R120), over every run from the STARTUP call on with no `pwm_set` in it (other commands may
stand anywhere) and no real elapsed time greater than the result of the `pwm_cycle`-family command before it: the host of
R120 (ii), which wakes the engine exactly when asked, and the one that other tasks make earlier, for which R120 says that
"nothing changes" (H5, H6). In the session the engine can be woken as it asked, and then lands on `NextTick` modulo `L`;
and over any whole number of cycles the ON time of channel `c` (R119) is the fraction `on_ticks(duty[c]) / L` of the
window. -/
def Obligations.SteadyStateDutyLaw : Prop :=
  ∀ (s : State) (commands : List Instr) (h : RunHistory), (∀ i ∈ commands, ∀ ch d, i ≠ .pwmSet ch d) →
    RunHistory.run (.pwmCycleStartup :: commands) s.beginHistory = .next h → h.WakesInTime →
    (h.state.phase = .run → ∃ w t, h.asked = some w ∧ (Instr.pwmCycle w).wellFormed = true ∧
      exec (.pwmCycle w) h.state = .next t ∧
      t.tick = h.state.nextTick h.state.tick % s.params.cycleLength) ∧
    ∀ K c : Nat, c < s.params.numChannels → h.window K % s.params.cycleLength = 0 →
      h.onTime c K * s.params.cycleLength = onTicks s.params (s.channelRead c).toNat * h.window K

/-! ### The Random Generator (R130 to R145) -/

/-- R130. `rng_pump` completes in every state: one LFSR step, result 0x00, everything else as it was. -/
def Obligations.RngPumpIsOneLfsrStep : Prop :=
  ∀ s : State, exec .rngPump s = .next { s with
    lfsr := if s.lfsr.getLsbD 31 then (s.lfsr <<< 1) ^^^ s.params.feedback else s.lfsr <<< 1
    result := some 0x00 }

/-- R131. The same step byte by byte: the bit leaving byte `i` enters byte `i+1` at bit 0, the bit leaving byte 3 is the
feedback bit, a 0 enters byte 0, and the feedback is applied per byte. -/
def Obligations.PumpByteByByte : Prop :=
  ∀ fb r : Word32,
    let b := wordByte r
    let k (i : Nat) : Byte := if (b 3).getLsbD 7 then wordByte fb i else 0x00
    wordByte (pump fb r) 3 = ((b 3).extractLsb' 0 7 ++ (b 2).extractLsb' 7 1) ^^^ k 3 ∧
    wordByte (pump fb r) 2 = ((b 2).extractLsb' 0 7 ++ (b 1).extractLsb' 7 1) ^^^ k 2 ∧
    wordByte (pump fb r) 1 = ((b 1).extractLsb' 0 7 ++ (b 0).extractLsb' 7 1) ^^^ k 1 ∧
    wordByte (pump fb r) 0 = ((b 0).extractLsb' 0 7 ++ (0#1)) ^^^ k 0

/-- `Pump` is a bijection when `FB[0] = 1` and maps zero, and zero alone, to zero; and `FB[0] = 1` is needed: without it the
value `0b1 : FB[31:1]` is pumped to zero (R132 (e), R133, R134, R135). -/
def Obligations.PumpIsABijectionThatFixesZero : Prop :=
  (∀ fb : Word32, fb.getLsbD 0 = true → Function.Bijective (pump fb) ∧ ∀ r, r ≠ 0 → pump fb r ≠ 0) ∧
  (∀ fb : Word32, pump fb 0 = 0) ∧
  (∀ fb : Word32, fb.getLsbD 0 = false → pump fb (1#1 ++ fb.extractLsb' 1 31) = 0)

/-- R136. `rng_add_entropy` completes in every state: the XOR into all four bytes, the zero correction, eight pumps,
result 0x00, everything else as it was. -/
def Obligations.RngAddEntropyDiffusesTheByte : Prop :=
  ∀ (e : Byte) (s : State), ∃ x : Word32, (∀ i, i < 4 → wordByte x i = wordByte s.lfsr i ^^^ e) ∧
    exec (.rngAddEntropy e) s = .next { s with
      lfsr := pumpTimes s.params.feedback 8 (if x = 0 then 0x80000000 else x)
      result := some 0x00 }

/-- When the zero correction happens (R137): exactly when all four register bytes were equal to the entropy byte; then
the first of the eight pumps yields `FB` (R138). -/
def Obligations.ZeroCorrectionHappensOnEqualBytes : Prop :=
  ∀ (e : Byte) (s : State),
    (s.lfsr ^^^ entropyWord e = 0 ↔ ∀ i, i < 4 → s.lfsrByte i = e) ∧
    ((∀ i, i < 4 → s.lfsrByte i = e) → ∃ t, exec (.rngAddEntropy e) s = .next t ∧
      t.lfsr = pumpTimes s.params.feedback 7 s.params.feedback)

/-- `rng_get 0` completes in every state: one pump, and 0 (R140, R143). -/
def Obligations.RngGetOfZeroPumpsOnce : Prop :=
  ∀ s : State, exec (.rngGet 0) s = .next { s with
    lfsr := pump s.params.feedback s.lfsr, result := some 0x00 }

/-- `rng_get` returns the first accepted candidate (R140, R141, R145): whatever the maximum, where the candidate after
`j` pumps is the first one not above it, the command completes with it, after exactly `j` pumps. No fuel shows. -/
def Obligations.RngGetReturnsTheFirstAcceptedCandidate : Prop :=
  ∀ (m : Byte) (s : State) (j : Nat), 1 ≤ j →
    (∀ i, 1 ≤ i → i < j →
      m < (pumpTimes s.params.feedback i s.lfsr).extractLsb' 24 8 &&& rejectionMask m) →
    (pumpTimes s.params.feedback j s.lfsr).extractLsb' 24 8 &&& rejectionMask m ≤ m →
    exec (.rngGet m) s = .next { s with
      lfsr := pumpTimes s.params.feedback j s.lfsr
      result := some ((pumpTimes s.params.feedback j s.lfsr).extractLsb' 24 8 &&& rejectionMask m) }

/-- `rng_get` never returns exactly when no candidate, however far on, is accepted (R144 (c)). -/
def Obligations.RngGetHangsOnlyWhereNothingIsAccepted : Prop :=
  ∀ (m : Byte) (s : State), exec (.rngGet m) s = .fault .rngGetNeverReturns ↔
    ∀ j, 1 ≤ j → m < (pumpTimes s.params.feedback j s.lfsr).extractLsb' 24 8 &&& rejectionMask m

/-- R143. For every maximum the result is in 0 .. maximum, and `rng_get 0` returns 0. -/
def Obligations.RngGetStaysInRange : Prop :=
  (∀ (m : Byte) (s t : State), exec (.rngGet m) s = .next t → ∃ v, t.result = some v ∧ v ≤ m) ∧
  (∀ s : State, ∃ t, exec (.rngGet 0) s = .next t ∧ t.result = some 0)

/-- `Mask(m)` is the smallest value of the form `2^k - 1` that is at least `m`, and fewer than half of its candidates
are rejected (R142). -/
def Obligations.MaskIsTheSmallestAllOnes : Prop :=
  ∀ m : Byte, 1 ≤ m.toNat →
    (∃ k, 1 ≤ k ∧ k ≤ 8 ∧ (rejectionMask m).toNat = 2 ^ k - 1) ∧ m.toNat ≤ (rejectionMask m).toNat ∧
    (∀ k, m.toNat ≤ 2 ^ k - 1 → (rejectionMask m).toNat ≤ 2 ^ k - 1) ∧
    2 * ((rejectionMask m).toNat - m.toNat) < (rejectionMask m).toNat + 1

/-- A maximum of the form `2^k - 1` accepts every candidate (R142, R145): `rng_get` completes after one pump, with the
masked top byte of the new register. -/
def Obligations.AllOnesMaximaAcceptAtOnce : Prop :=
  ∀ (k : Nat) (m : Byte) (s : State), m.toNat = 2 ^ k - 1 → exec (.rngGet m) s = .next { s with
    lfsr := pump s.params.feedback s.lfsr
    result := some ((pump s.params.feedback s.lfsr).extractLsb' 24 8 &&& m) }

/-- Under the named hypothesis FB_PRIMITIVE `rng_get` always returns, within 2^32 - 1 pumps (R144 (a), (b)). The
hypothesis is taken in its maximal-length form, from general knowledge (log entry 22). -/
def Obligations.RngGetReturnsUnderMaximalLength : Prop :=
  ∀ (m : Byte) (s : State), FbMaximalLength s.params → ∃ j t, 1 ≤ j ∧ j ≤ 2 ^ 32 - 1 ∧
    exec (.rngGet m) s = .next t ∧ t.lfsr = pumpTimes s.params.feedback j s.lfsr

/-! ### The host's procedures (42_host_clients.md) -/

/-- `adjust` keeps the target, and brings any other value nearer by the rate, never past the target: R172's clamps, and
R173's bound with the equality that R173 derives from R172. -/
def Obligations.FadeAdjustConverges : Prop :=
  ∀ (f : FadeState) (p : Byte), f.adjust f.target = f.target ∧
    (((f.adjust p).toNat : Int) - f.target.toNat).natAbs = ((p.toNat : Int) - f.target.toNat).natAbs - f.rate.toNat ∧
    (p ≤ f.target → p ≤ f.adjust p ∧ f.adjust p ≤ f.target) ∧ (f.target ≤ p → f.target ≤ f.adjust p ∧ f.adjust p ≤ p)

/-- A Fade round through the block (R175): every configured backed channel's duty is adjusted, every other duty is as it
was, and the round answers whether some value changed. -/
def Obligations.FadeRoundAdjustsEveryChannel : Prop :=
  ∀ (f : FadeState) (channels : List Byte) (s : State), channels.Nodup → ∃ changed t,
    (f.round channels).run s = .next (changed, t) ∧
    (∀ c : Byte, c ∈ channels → c.toNat < s.params.numChannels →
      t.channelRead c.toNat = f.adjust (s.channelRead c.toNat)) ∧
    (∀ n : Nat, (∀ c ∈ channels, c.toNat ≠ n) → t.channelRead n = s.channelRead n) ∧
    (changed = true ↔ ∃ c ∈ channels, f.adjust (s.channelRead c.toNat) ≠ s.channelRead c.toNat) ∧
    s.SameButDuties t

/-- The Fade task with a real elapsed time (R174, R175), whatever the spec leaves open of it: with `period = 0` every
configured channel goes to the target and the answer is IDLE (the accumulator is then free: log entry 16); below `period` it accumulates the elapsed time and issues
no command; at `period` it applies `adjust` to every configured channel and asks for `period` ms where some value
changed, else for IDLE. -/
def Obligations.FadeTaskSnapsWaitsOrAdjusts : Prop :=
  ∀ (f : FadeState) (details : FadeDetails) (channels : List Byte) (e : Byte) (s : State), channels.Nodup →
    (Instr.pwmCycle e).wellFormed = true →
    (f.period = 0 → ∃ t, (f.cycle details channels e).run s =
        .next ((0xFF, { f with accumulator := details.accumulatorAfterSnap f e }), t) ∧
      (∀ c ∈ channels, c.toNat < s.params.numChannels → t.channelRead c.toNat = f.target) ∧
      (∀ n : Nat, (∀ c ∈ channels, c.toNat ≠ n) → t.channelRead n = s.channelRead n) ∧ s.SameButDuties t) ∧
    (f.period ≠ 0 → f.accumulator + e.toNat < f.period.toNat → (f.cycle details channels e).trace s = [] ∧
      let waiting := { f with accumulator := f.accumulator + e.toNat }
      (f.cycle details channels e).run s = .next ((details.wakeBelowPeriod waiting, waiting), s)) ∧
    (f.period ≠ 0 → f.period.toNat ≤ f.accumulator + e.toNat → ∃ wake t, (f.cycle details channels e).run s =
        .next ((wake, { f with accumulator := details.accumulatorAfterReset f e }), t) ∧
      (∀ c ∈ channels, c.toNat < s.params.numChannels →
        t.channelRead c.toNat = f.adjust (s.channelRead c.toNat)) ∧
      (∀ n : Nat, (∀ c ∈ channels, c.toNat ≠ n) → t.channelRead n = s.channelRead n) ∧ s.SameButDuties t ∧
      ((∃ c ∈ channels, f.adjust (s.channelRead c.toNat) ≠ s.channelRead c.toNat) → wake = f.period) ∧
      ((∀ c ∈ channels, f.adjust (s.channelRead c.toNat) = s.channelRead c.toNat) → wake = 0xFF))

/-- The circular distance (R181, 90_conflicts.md C3): at most 127; the shorter arc or one less; symmetric to within 1. -/
def Obligations.CircularDistanceIsTheShorterArcWithinOne : Prop :=
  ∀ a b : Byte, (circularDistance a b).toNat ≤ 127 ∧
    (circularDistance a b).toNat ≤ min (a - b).toNat (b - a).toNat ∧
    min (a - b).toNat (b - a).toNat ≤ (circularDistance a b).toNat + 1 ∧
    (circularDistance a b).toNat ≤ (circularDistance b a).toNat + 1

/-- The Twinkle mapping (R182, R184): brightness 255 is fully on and brightness 0 fully off at every distance; the
falloff is the formula of R182 with nothing lost to the byte. -/
def Obligations.TwinkleDutyFormula : Prop :=
  ∀ d b : Byte, d.toNat ≤ 127 →
    twinkleDuty d 255 = 255 ∧ twinkleDuty d 0 = 0 ∧ (b ≤ d → twinkleDuty d b = 0) ∧
    (d < b → d.toNat * 2 < b.toNat → twinkleDuty d b = 255) ∧
    (d < b → b.toNat ≤ d.toNat * 2 →
      ((twinkleDuty d b).toNat : Int) = 255 - (256 * 2 * ((d.toNat : Int) - b.toNat / 2)) / b.toNat)

/-- The Twinkle setters (R183), whatever the spec leaves open of them: a setter that changes the position or the
brightness stores it and gives every configured channel its duty for the new light source before it returns; every other
duty and the rest of the block are as they were; a setter called with the value held stores nothing new. -/
def Obligations.TwinkleSettersRecomputeEveryChannel : Prop :=
  ∀ (t : TwinkleState) (ring : Ring) (v : Byte) (s : State), (ring.channels.map Prod.fst).Nodup →
    (∃ u, (t.setPosition ring v).run s = .next ({ t with position := v }, u) ∧ s.SameButDuties u ∧
      (∀ n : Nat, (∀ x ∈ ring.channels, x.1.toNat ≠ n) → u.channelRead n = s.channelRead n) ∧
      (t.position ≠ v → ∀ x ∈ ring.channels, x.1.toNat < s.params.numChannels →
        u.channelRead x.1.toNat = twinkleDuty (ring.distance x.2 v) t.brightness)) ∧
    (∃ u, (t.setBrightness ring v).run s = .next ({ t with brightness := v }, u) ∧ s.SameButDuties u ∧
      (∀ n : Nat, (∀ x ∈ ring.channels, x.1.toNat ≠ n) → u.channelRead n = s.channelRead n) ∧
      (t.brightness ≠ v → ∀ x ∈ ring.channels, x.1.toNat < s.params.numChannels →
        u.channelRead x.1.toNat = twinkleDuty (ring.distance x.2 t.position) v))

/-- The aggregated wake (R161): no request is below it, it is one of the requests or IDLE, and one task asking for
SHUTDOWN makes it SHUTDOWN. -/
def Obligations.AggregatedWakeIsTheMinimum : Prop :=
  ∀ requests : List Byte, (∀ w ∈ requests, aggregateWakes requests ≤ w) ∧
    (aggregateWakes requests ∈ requests ∨ aggregateWakes requests = Config.idle) ∧
    (Config.shutdown ∈ requests → aggregateWakes requests = Config.shutdown)

/-- The Scheduler's session (R160 to R162): where the PWM Engine is registered once and no other task issues a command of
the `pwm_cycle` family, whatever the tasks, their order and the elapsed times, the commands that reach the block are in
the order R162 gives; run from phase PRE the session meets no refusal; while it sleeps the engine is in its session and
the sleep is of 1 to `L` milliseconds (R118, R176; that the aggregated wake is slept on undecremented is the model's
choice, log entry 24); and when it has ended the engine has halted. -/
def Obligations.SchedulerSessionDrivesTheEngine : Prop :=
  ∀ (E : Type) (p : HostProgram E) (before after : List (RegisteredTask E)) (elapsed : List RealElapsed)
    (h : HostState E) (s : State),
    p.tasks = before ++ .engine :: after →
    (∀ task ∈ before ++ after, ∀ e h, (p.invoke e h task).IssuesOnly fun i => !i.isCycleFamily) →
    sessionLegal ((p.session elapsed h).trace s) = true ∧
    (s.phase = .pre → (∀ r, (p.session elapsed h).run s ≠ .refused r) ∧
      (∀ wake h' t, (p.session elapsed h).run s = .next (.asleep wake h', t) →
        t.phase = .run ∧ 1 ≤ wake.toNat ∧ wake.toNat ≤ s.params.cycleLength) ∧
      (∀ h' t, (p.session elapsed h).run s = .next (.ended h', t) → t.phase = .halt))

/-- The Random Generator is "consumed by effect logic and by nothing else in the core" (R34): neither the Scheduler nor
the PWM Engine's and the Fade Controller's tasks nor the Twinkle setters issue a Random Generator command. So a session
whose effect tasks issue none issues none, and leaves the LFSR register as it was. -/
def Obligations.OnlyEffectProgramsDriveTheRandomGenerator : Prop :=
  ∀ (E : Type) (p : HostProgram E) (h : HostState E),
    (∀ (elapsed : List RealElapsed) (s : State),
      (∀ cycle, .effect cycle ∈ p.tasks → ∀ e h, (cycle e h).IssuesOnly fun i => !i.isRandom) →
      (∀ i ∈ (p.session elapsed h).trace s, i.isRandom = false) ∧
      ∀ point t, (p.session elapsed h).run s = .next (point, t) → t.lfsr = s.lfsr) ∧
    (∀ v : Byte, ((p.setTwinklePosition v h).IssuesOnly fun i => !i.isRandom) ∧
      (p.setTwinkleBrightness v h).IssuesOnly fun i => !i.isRandom)
end

