-- ==== Sys2Proof/Laws/Fields.lean ====
section
/-! SUPPORT. The fields of a command word: which bits they are, and that a word is its three fields. -/

namespace Sys2Proof

theorem getLsbD_commandWord (op a b : Byte) (i : Nat) :
    (commandWord op a b).getLsbD i =
      if i < 8 then b.getLsbD i else if i < 16 then a.getLsbD (i - 8) else op.getLsbD (i - 16) := by
  have h1 : (commandWord op a b).getLsbD i = ((op ++ a) ++ b).getLsbD i := rfl
  rw [h1, BitVec.getLsbD_append, BitVec.getLsbD_append]
  by_cases h : i < 8
  · simp [h]
  · by_cases h' : i < 16
    · simp [h, h', show i - 8 < 8 by omega]
    · simp [h, h', show ¬ (i - 8 < 8) by omega, show i - 8 - 8 = i - 16 by omega]

@[simp] theorem opField_commandWord (op a b : Byte) : opField (commandWord op a b) = op := by
  apply BitVec.eq_of_getLsbD_eq
  intro i hi
  simp [opField, getLsbD_commandWord, hi]
  omega

@[simp] theorem aField_commandWord (op a b : Byte) : aField (commandWord op a b) = a := by
  apply BitVec.eq_of_getLsbD_eq
  intro i hi
  simp [aField, getLsbD_commandWord, hi, show 8 + i < 16 by omega]

@[simp] theorem bField_commandWord (op a b : Byte) : bField (commandWord op a b) = b := by
  apply BitVec.eq_of_getLsbD_eq
  intro i hi
  simp [bField, getLsbD_commandWord, hi]

/-- A word is its three fields. -/
theorem commandWord_fields (w : Command) : commandWord (opField w) (aField w) (bField w) = w := by
  apply BitVec.eq_of_getLsbD_eq
  intro i hi
  rw [getLsbD_commandWord]
  unfold opField aField bField
  split
  · next h => simp [h]
  · split
    · simp [show 8 + (i - 8) = i by omega]; omega
    · simp [show 16 + (i - 16) = i by omega]; omega

theorem and_commandWord (op a b op' a' b' : Byte) :
    commandWord op a b &&& commandWord op' a' b' = commandWord (op &&& op') (a &&& a') (b &&& b') := by
  apply BitVec.eq_of_getLsbD_eq
  intro i hi
  simp only [BitVec.getLsbD_and, getLsbD_commandWord]
  split <;> [skip; split] <;> simp

theorem commandWord_inj {op a b op' a' b' : Byte} (h : commandWord op a b = commandWord op' a' b') :
    op = op' ∧ a = a' ∧ b = b' := by
  refine ⟨?_, ?_, ?_⟩
  · simpa using congrArg opField h
  · simpa using congrArg aField h
  · simpa using congrArg bField h

/-- What a row's mask and match bits test, field by field. -/
theorem commandWord_and_eq {op a b mo ma mb vo va vb : Byte} :
    commandWord op a b &&& commandWord mo ma mb = commandWord vo va vb ↔
      op &&& mo = vo ∧ a &&& ma = va ∧ b &&& mb = vb := by
  rw [and_commandWord]
  exact ⟨commandWord_inj, fun ⟨h1, h2, h3⟩ => by rw [h1, h2, h3]⟩

end Sys2Proof
end

