-- ==== Sys2Proof/Laws/Decode.lean ====
section
/-! SUPPORT. What the decoder answers, said once: on a word given by its fields, row by row of R77. -/

namespace Sys2Proof

/-- What a row's mask and match bits test of a word given by its fields. -/
theorem selects_commandWord (r : Row) (op a b mo ma mb vo va vb : Byte)
    (hm : r.maskBits = commandWord mo ma mb) (hv : r.matchBits = commandWord vo va vb) :
    r.selects (commandWord op a b) = true ↔
      (op &&& mo = vo ∧ a &&& ma = va ∧ b &&& mb = vb) ∧ r.side a = true := by
  rw [Row.selects, hm, hv, aField_commandWord, Bool.and_eq_true, beq_iff_eq, commandWord_and_eq]

theorem find?_cons_if {α : Type} (p : α → Bool) (x : α) (l : List α) :
    (x :: l).find? p = if p x = true then some x else l.find? p := by
  rw [List.find?_cons]; cases p x <;> rfl

theorem find?_eight {α : Type} (p : α → Bool) (r₀ r₁ r₂ r₃ r₄ r₅ r₆ r₇ : α) :
    [r₀, r₁, r₂, r₃, r₄, r₅, r₆, r₇].find? p =
      if p r₀ = true then some r₀
      else if p r₁ = true then some r₁
      else if p r₂ = true then some r₂
      else if p r₃ = true then some r₃
      else if p r₄ = true then some r₄
      else if p r₅ = true then some r₅
      else if p r₆ = true then some r₆
      else if p r₇ = true then some r₇
      else none := by
  simp only [find?_cons_if, List.find?_nil]

/-- The decoder on a word given by its fields: what `decode` answers, row by row of R77. -/
theorem decode_commandWord (op a b : Byte) :
    decode (commandWord op a b) =
      if op = 0x01 then .ok (.pwmSet a b)
      else if op = 0x02 ∧ b = 0x00 then .ok (.pwmGet a)
      else if op = 0x03 ∧ a = 0xFF ∧ b = 0x00 then .ok .pwmCycleStartup
      else if op = 0x03 ∧ a = 0x00 ∧ b = 0x00 then .ok .pwmCycleShutdown
      else if (op = 0x03 ∧ b = 0x00) ∧ a ≠ 0x00 ∧ a ≠ 0xFF then .ok (.pwmCycle a)
      else if op = 0x10 ∧ a = 0x00 ∧ b = 0x00 then .ok .rngPump
      else if op = 0x11 ∧ b = 0x00 then .ok (.rngAddEntropy a)
      else if op = 0x12 ∧ b = 0x00 then .ok (.rngGet a)
      else .error (if definedOpcodes.contains op then .operandField else .opcode) := by
  have ones (x : Byte) : x &&& 0xFF = x := BitVec.and_allOnes
  have zeros (x : Byte) : x &&& 0x00 = 0x00 := BitVec.and_zero
  have side : decide (0x01#8 ≤ a ∧ a ≤ 0xFE#8) = true ↔ a ≠ 0x00 ∧ a ≠ 0xFF := by revert a; decide
  have sel := fun r => selects_commandWord r op a b
  have two (r : Row) (vo : Byte) := sel r 0xFF 0x00 0x00 vo 0x00 0x00
  have one (r : Row) (vo : Byte) := sel r 0xFF 0x00 0xFF vo 0x00 0x00
  have whole (r : Row) (vo va : Byte) := sel r 0xFF 0xFF 0xFF vo va 0x00
  simp only [ones, zeros, true_and, and_true] at two one whole
  have h0 := (two opcodeRows[0] 0x01 rfl rfl).trans (and_iff_left rfl)
  have h1 := (one opcodeRows[1] 0x02 rfl rfl).trans (and_iff_left rfl)
  have h2 := (whole opcodeRows[2] 0x03 0xFF rfl rfl).trans (and_iff_left rfl)
  have h3 := (whole opcodeRows[3] 0x03 0x00 rfl rfl).trans (and_iff_left rfl)
  have h4 := (one opcodeRows[4] 0x03 rfl rfl).trans (and_congr_right' side)
  have h5 := (whole opcodeRows[5] 0x10 0x00 rfl rfl).trans (and_iff_left rfl)
  have h6 := (one opcodeRows[6] 0x11 rfl rfl).trans (and_iff_left rfl)
  have h7 := (one opcodeRows[7] 0x12 rfl rfl).trans (and_iff_left rfl)
  unfold decode
  rw [show opcodeRows.find? _ = _ from find?_eight _ opcodeRows[0] opcodeRows[1] opcodeRows[2] opcodeRows[3]
    opcodeRows[4] opcodeRows[5] opcodeRows[6] opcodeRows[7], aField_commandWord, bField_commandWord,
    opField_commandWord]
  simp only [h0, h1, h2, h3, h4, h5, h6, h7]
  split_ifs <;> rfl

end Sys2Proof
end

