-- ==== Sys2Proof/Laws/HostClients.lean ====
section
/-! SUPPORT. What a client of the block can do: its run, the commands it issues, one procedure after another. -/

namespace Sys2Proof.Machine

variable {A B : Type}

@[simp] theorem Client.run_done (a : A) (s : State) : (Client.done a).run s = .next (a, s) := rfl

@[simp] theorem Client.trace_done (a : A) (s : State) : (Client.done a).trace s = [] := rfl

@[simp] theorem Client.issuesOnly_done (allowed : Instr → Bool) (a : A) : (Client.done a).IssuesOnly allowed := trivial

@[simp] theorem Client.issuesOnly_issue {allowed : Instr → Bool} {i : Instr} {next : Byte → Client A} :
    (Client.issue i next).IssuesOnly allowed ↔ allowed i = true ∧ ∀ v, (next v).IssuesOnly allowed := Iff.rfl

theorem Client.run_issue_next {i : Instr} {s t : State} (h : exec i s = .next t) (next : Byte → Client A) :
    (Client.issue i next).run s = (next (t.result.getD noResult)).run t := by
  simp [Client.run, h]

theorem Client.trace_issue_next {i : Instr} {s t : State} (h : exec i s = .next t) (next : Byte → Client A) :
    (Client.issue i next).trace s = i :: (next (t.result.getD noResult)).trace t := by
  simp [Client.trace, h]

/-- One procedure after another: the second runs on the answer and the state of the first. -/
theorem Client.run_bind (p : Client A) (g : A → Client B) (s : State) :
    (p.bind g).run s = match p.run s with
      | .next (a, t) => (g a).run t
      | .fault f => .fault f
      | .refused r => .refused r := by
  induction p generalizing s with
  | done a => rfl
  | issue i next ih =>
    simp only [Client.bind, Client.run]
    cases exec i s with
    | next t => exact ih _ t
    | fault f => rfl
    | refused r => rfl

theorem Client.run_map (p : Client A) (g : A → B) (s : State) :
    (p.map g).run s = match p.run s with
      | .next (a, t) => .next (g a, t)
      | .fault f => .fault f
      | .refused r => .refused r := by
  unfold Client.map
  rw [Client.run_bind]
  cases p.run s <;> rfl

/-- The commands of one procedure after another. -/
theorem Client.trace_bind (p : Client A) (g : A → Client B) (s : State) :
    (p.bind g).trace s = p.trace s ++ match p.run s with
      | .next (a, t) => (g a).trace t
      | .fault _ => []
      | .refused _ => [] := by
  induction p generalizing s with
  | done a => rfl
  | issue i next ih =>
    simp only [Client.bind, Client.trace, Client.run]
    cases exec i s with
    | next t => simp [ih]
    | fault f => rfl
    | refused r => rfl

theorem Client.trace_map (p : Client A) (g : A → B) (s : State) : (p.map g).trace s = p.trace s := by
  unfold Client.map
  rw [Client.trace_bind]
  cases p.run s <;> simp

theorem Client.issuesOnly_bind {allowed : Instr → Bool} {p : Client A} {g : A → Client B}
    (hp : p.IssuesOnly allowed) (hg : ∀ a, (g a).IssuesOnly allowed) : (p.bind g).IssuesOnly allowed := by
  induction p with
  | done a => exact hg a
  | issue i next ih => exact ⟨hp.1, fun v => ih v (hp.2 v)⟩

theorem Client.issuesOnly_map {allowed : Instr → Bool} {p : Client A} (hp : p.IssuesOnly allowed) (g : A → B) :
    (p.map g).IssuesOnly allowed :=
  Client.issuesOnly_bind hp fun _ => trivial

theorem Client.issuesOnly_mono {few many : Instr → Bool} (h : ∀ i, few i = true → many i = true) {p : Client A}
    (hp : p.IssuesOnly few) : p.IssuesOnly many := by
  induction p with
  | done a => trivial
  | issue i next ih => exact ⟨h i hp.1, fun v => ih v (hp.2 v)⟩

theorem Client.issuesOnly_issueAll {allowed : Instr → Bool} {commands : List Instr} :
    (Client.issueAll commands).IssuesOnly allowed ↔ ∀ i ∈ commands, allowed i = true := by
  induction commands with
  | nil => simp [Client.issueAll]
  | cons i rest ih => simp [Client.issueAll, ih]

/-- A Fade round reads and writes duties, and issues nothing else (R175). -/
theorem FadeState.round_issuesOnly (f : FadeState) (channels : List Byte) :
    (f.round channels).IssuesOnly isChannelAccess := by
  induction channels with
  | nil => trivial
  | cons c rest ih => exact ⟨rfl, fun d => ⟨rfl, fun _ => Client.issuesOnly_map ih _⟩⟩

/-- The Fade task issues `pwm_set` and `pwm_get` alone, on every call (R34, R174, R175). -/
theorem FadeState.cycle_issuesOnly (f : FadeState) (details : FadeDetails) (channels : List Byte) (elapsed : Byte) :
    (f.cycle details channels elapsed).IssuesOnly isChannelAccess := by
  unfold FadeState.cycle FadeState.cycleReal
  split
  · exact details.onSentinel_issuesOnly elapsed f
  · split
    · exact Client.issuesOnly_map (Client.issuesOnly_issueAll.mpr (by simp [FadeState.snap, isChannelAccess])) _
    · split
      · trivial
      · exact Client.issuesOnly_map (f.round_issuesOnly channels) _

/-- What a procedure may issue bounds what it does issue. -/
theorem Client.issuesOnly_trace {allowed : Instr → Bool} {p : Client A} (hp : p.IssuesOnly allowed) (s : State) :
    ∀ i ∈ p.trace s, allowed i = true := by
  induction p generalizing s with
  | done a => intro i hi; cases hi
  | issue i next ih =>
    intro j hj
    unfold Client.trace at hj
    rcases List.mem_cons.mp hj with rfl | hj
    · exact hp.1
    · revert hj
      cases exec i s with
      | next t => exact ih _ (hp.2 _) t j
      | fault f => intro hj; cases hj
      | refused r => intro hj; cases hj

/-- A list of commands issued is that list run. -/
theorem Client.run_issueAll (commands : List Instr) (s : State) :
    (Client.issueAll commands).run s = match runInstrs commands s with
      | .next t => .next ((), t)
      | .fault f => .fault f
      | .refused r => .refused r := by
  induction commands generalizing s with
  | nil => rfl
  | cons i rest ih =>
    simp only [Client.issueAll, Client.run, runInstrs]
    cases exec i s with
    | next t => exact ih t
    | fault f => rfl
    | refused r => rfl

/-- A procedure run leaves the state its commands lead to. -/
theorem Client.runInstrs_trace {p : Client A} {s t : State} {a : A} (h : p.run s = .next (a, t)) :
    runInstrs (p.trace s) s = .next t := by
  induction p generalizing s with
  | done b => cases h; rfl
  | issue i next ih =>
    simp only [Client.run] at h
    simp only [Client.trace, runInstrs]
    cases hx : exec i s with
    | next u => rw [hx] at h; exact ih _ h
    | fault f => rw [hx] at h; cases h
    | refused r => rw [hx] at h; cases h

end Sys2Proof.Machine
end

