-- ==== Sys2Proof/Laws/Memory.lean ====
section
/-! SUPPORT. The laws of the channel space's contents: reading after writing, and the canonical form. -/

namespace Sys2Proof.Machine

@[simp] theorem Memory.read_nil (c : Nat) : Memory.read [] c = Config.dutyReset := rfl

theorem Memory.read_cons (i : Nat) (w : Byte) (m : Memory) (c : Nat) :
    Memory.read ((i, w) :: m) c = if i = c then w else Memory.read m c := rfl

theorem Memory.read_erase (m : Memory) (c c' : Nat) :
    Memory.read (Memory.erase m c) c' = if c' = c then Config.dutyReset else Memory.read m c' := by
  induction m with
  | nil => simp [Memory.erase]
  | cons e m ih =>
    obtain ⟨i, w⟩ := e
    simp only [Memory.erase] at ih ⊢
    by_cases hi : i = c
    · subst hi
      by_cases hc : c' = i
      · subst hc; simpa using ih
      · simp [ih, hc, Memory.read_cons, Ne.symm hc]
    · rw [List.filter_cons_of_pos (by simpa using hi), Memory.read_cons, Memory.read_cons, ih]
      by_cases hc : c' = c
      · subst hc; simp [hi]
      · simp [hc]

theorem Memory.erase_absent (m : Memory) (c : Nat) : ∀ e ∈ Memory.erase m c, e.1 ≠ c := by
  intro e he
  simpa using (List.mem_filter.mp he).2

theorem Memory.read_insert (m : Memory) (c c' : Nat) (v : Byte) (h : ∀ e ∈ m, e.1 ≠ c) :
    Memory.read (Memory.insert m c v) c' = if c' = c then v else Memory.read m c' := by
  induction m with
  | nil => simp [Memory.insert, Memory.read_cons, eq_comm]
  | cons e m ih =>
    obtain ⟨i, w⟩ := e
    have hi : i ≠ c := h (i, w) (by simp)
    have ih := ih fun e he => h e (by simp [he])
    simp only [Memory.insert]
    split
    · simp only [Memory.read_cons, eq_comm (a := c)]
    · rw [Memory.read_cons, Memory.read_cons, ih]
      by_cases hc : c' = c
      · subst hc; simp [hi]
      · simp [hc]

/-- Reading after writing: the byte written at its index, every other index as before. -/
theorem Memory.read_write (m : Memory) (c c' : Nat) (v : Byte) :
    Memory.read (Memory.write m c v) c' = if c' = c then v else Memory.read m c' := by
  unfold Memory.write
  split
  · next h => rw [Memory.read_erase, h]
  · rw [Memory.read_insert _ _ _ _ (Memory.erase_absent m c), Memory.read_erase]
    split <;> rfl

theorem Memory.mem_insert (m : Memory) (c : Nat) (v : Byte) (e : Host.Cell) :
    e ∈ Memory.insert m c v ↔ e = (c, v) ∨ e ∈ m := by
  induction m with
  | nil => simp [Memory.insert]
  | cons x m ih =>
    obtain ⟨i, w⟩ := x
    simp only [Memory.insert]
    split
    · simp
    · simp only [List.mem_cons, ih]; tauto

/-- An entry after a write is the one written or one that was there at another index. -/
theorem Memory.mem_write {m : Memory} {c : Nat} {v : Byte} {e : Host.Cell} (h : e ∈ Memory.write m c v) :
    e = (c, v) ∧ v ≠ Config.dutyReset ∨ e ∈ m ∧ e.1 ≠ c := by
  have key : e ∈ Memory.erase m c → e ∈ m ∧ e.1 ≠ c :=
    fun he => ⟨List.mem_of_mem_filter he, Memory.erase_absent m c e he⟩
  unfold Memory.write at h
  split at h
  · exact .inr (key h)
  · next hv =>
    rcases (Memory.mem_insert _ _ _ _).mp h with he | he
    · exact .inl ⟨he, hv⟩
    · exact .inr (key he)

theorem Memory.insert_sorted (m : Memory) (c : Nat) (v : Byte) (hs : m.Pairwise fun x y => x.1 < y.1)
    (h : ∀ e ∈ m, e.1 ≠ c) : (Memory.insert m c v).Pairwise fun x y => x.1 < y.1 := by
  induction m with
  | nil => simp [Memory.insert]
  | cons x m ih =>
    obtain ⟨i, w⟩ := x
    have hi : i ≠ c := h (i, w) (by simp)
    obtain ⟨hx, hm⟩ := List.pairwise_cons.mp hs
    simp only [Memory.insert]
    split
    · next hlt =>
      refine List.pairwise_cons.mpr ⟨fun y hy => ?_, hs⟩
      rcases List.mem_cons.mp hy with rfl | hy
      · exact hlt
      · exact Nat.lt_trans hlt (hx y hy)
    · refine List.pairwise_cons.mpr ⟨fun y hy => ?_, ih hm fun e he => h e (by simp [he])⟩
      rcases (Memory.mem_insert _ _ _ _).mp hy with rfl | hy
      · show i < c; omega
      · exact hx y hy

/-- The only operation that changes the memory keeps its canonical form. -/
theorem Memory.write_wf {m : Memory} (h : Memory.wf m) (c : Nat) (v : Byte) : Memory.wf (Memory.write m c v) := by
  refine ⟨?_, fun e he => ?_⟩
  · have hs : (Memory.erase m c).Pairwise fun x y => x.1 < y.1 := h.1.filter _
    unfold Memory.write
    split
    · exact hs
    · exact Memory.insert_sorted _ _ _ hs (Memory.erase_absent m c)
  · rcases Memory.mem_write he with ⟨rfl, hv⟩ | ⟨hm, _⟩
    · exact hv
    · exact h.2 e hm

theorem Memory.read_of_lt {m : Memory} {c : Nat} (h : ∀ e ∈ m, c < e.1) : Memory.read m c = Config.dutyReset := by
  induction m with
  | nil => rfl
  | cons x m ih =>
    obtain ⟨i, w⟩ := x
    have hi : c < i := h (i, w) (by simp)
    rw [Memory.read_cons, if_neg (by omega), ih fun e he => h e (by simp [he])]

/-- In canonical form, memories that read the same are the same data. -/
theorem Memory.ext_of_read {m m' : Memory} (h : Memory.wf m) (h' : Memory.wf m')
    (hr : ∀ c, Memory.read m c = Memory.read m' c) : m = m' := by
  induction m generalizing m' with
  | nil =>
    cases m' with
    | nil => rfl
    | cons x m' =>
      obtain ⟨i, w⟩ := x
      have := hr i
      rw [Memory.read_cons, if_pos rfl] at this
      exact absurd this.symm (h'.2 (i, w) (by simp))
  | cons x m ih =>
    obtain ⟨i, w⟩ := x
    have hw : w ≠ Config.dutyReset := h.2 (i, w) (by simp)
    obtain ⟨hx, hm⟩ := List.pairwise_cons.mp h.1
    cases m' with
    | nil =>
      have := hr i
      rw [Memory.read_cons, if_pos rfl] at this
      exact absurd this hw
    | cons y m' =>
      obtain ⟨j, u⟩ := y
      have hu : u ≠ Config.dutyReset := h'.2 (j, u) (by simp)
      obtain ⟨hy, hm'⟩ := List.pairwise_cons.mp h'.1
      have hij : i = j := by
        rcases Nat.lt_trichotomy i j with hlt | heq | hlt
        · have := hr i
          rw [Memory.read_cons, if_pos rfl, Memory.read_cons, if_neg (by omega),
            Memory.read_of_lt fun e he => Nat.lt_trans hlt (hy e he)] at this
          exact absurd this hw
        · exact heq
        · have := hr j
          rw [Memory.read_cons, if_neg (by omega), Memory.read_cons, if_pos rfl,
            Memory.read_of_lt fun e he => Nat.lt_trans hlt (hx e he)] at this
          exact absurd this.symm hu
      subst hij
      have hwu : w = u := by simpa [Memory.read_cons] using hr i
      subst hwu
      have : m = m' := by
        refine ih ⟨hm, fun e he => h.2 e (by simp [he])⟩ ⟨hm', fun e he => h'.2 e (by simp [he])⟩ fun c => ?_
        have := hr c
        rw [Memory.read_cons, Memory.read_cons] at this
        split at this
        · next hc => rw [← hc, Memory.read_of_lt hx, Memory.read_of_lt hy]
        · exact this
      rw [this]

end Sys2Proof.Machine
end

