-- ==== Sys2Proof/Laws/State.lean ====
section
/-! SUPPORT. What each update of the state does to each field. -/

namespace Sys2Proof.Machine

@[simp] theorem State.channelWrite_duty (s : State) (c : Nat) (v : Byte) : (s.channelWrite c v).duty = if c < s.params.numChannels then Memory.write s.duty c v else s.duty := rfl
@[simp] theorem State.channelWrite_tick (s : State) (c : Nat) (v : Byte) : (s.channelWrite c v).tick = s.tick := rfl
@[simp] theorem State.channelWrite_pin (s : State) (c : Nat) (v : Byte) : (s.channelWrite c v).pin = s.pin := rfl
@[simp] theorem State.channelWrite_phase (s : State) (c : Nat) (v : Byte) : (s.channelWrite c v).phase = s.phase := rfl
@[simp] theorem State.channelWrite_lfsr (s : State) (c : Nat) (v : Byte) : (s.channelWrite c v).lfsr = s.lfsr := rfl
@[simp] theorem State.channelWrite_params (s : State) (c : Nat) (v : Byte) : (s.channelWrite c v).params = s.params := rfl
@[simp] theorem State.channelWrite_inbox (s : State) (c : Nat) (v : Byte) : (s.channelWrite c v).inbox = s.inbox := rfl
@[simp] theorem State.channelWrite_result (s : State) (c : Nat) (v : Byte) : (s.channelWrite c v).result = s.result := rfl

@[simp] theorem State.answer_duty (s : State) (v : Byte) : (s.answer v).duty = s.duty := rfl
@[simp] theorem State.answer_tick (s : State) (v : Byte) : (s.answer v).tick = s.tick := rfl
@[simp] theorem State.answer_pin (s : State) (v : Byte) : (s.answer v).pin = s.pin := rfl
@[simp] theorem State.answer_phase (s : State) (v : Byte) : (s.answer v).phase = s.phase := rfl
@[simp] theorem State.answer_lfsr (s : State) (v : Byte) : (s.answer v).lfsr = s.lfsr := rfl
@[simp] theorem State.answer_params (s : State) (v : Byte) : (s.answer v).params = s.params := rfl
@[simp] theorem State.answer_inbox (s : State) (v : Byte) : (s.answer v).inbox = s.inbox := rfl
@[simp] theorem State.answer_result (s : State) (v : Byte) : (s.answer v).result = some v := rfl

@[simp] theorem State.runTick_duty (s : State) (t : Nat) : (s.runTick t).duty = s.duty := rfl
@[simp] theorem State.runTick_tick (s : State) (t : Nat) : (s.runTick t).tick = t := rfl
@[simp] theorem State.runTick_pin (s : State) (t : Nat) : (s.runTick t).pin = s.pinsAt t := rfl
@[simp] theorem State.runTick_phase (s : State) (t : Nat) : (s.runTick t).phase = .run := rfl
@[simp] theorem State.runTick_lfsr (s : State) (t : Nat) : (s.runTick t).lfsr = s.lfsr := rfl
@[simp] theorem State.runTick_params (s : State) (t : Nat) : (s.runTick t).params = s.params := rfl
@[simp] theorem State.runTick_inbox (s : State) (t : Nat) : (s.runTick t).inbox = s.inbox := rfl
@[simp] theorem State.runTick_result (s : State) (t : Nat) : (s.runTick t).result = some (wakeByte (s.nextWake t)) := rfl

@[simp] theorem State.releasePins_duty (s : State) : (s.releasePins).duty = s.duty := rfl
@[simp] theorem State.releasePins_tick (s : State) : (s.releasePins).tick = s.tick := rfl
@[simp] theorem State.releasePins_pin (s : State) : (s.releasePins).pin = List.replicate s.params.numChannels .unused := rfl
@[simp] theorem State.releasePins_phase (s : State) : (s.releasePins).phase = .halt := rfl
@[simp] theorem State.releasePins_lfsr (s : State) : (s.releasePins).lfsr = s.lfsr := rfl
@[simp] theorem State.releasePins_params (s : State) : (s.releasePins).params = s.params := rfl
@[simp] theorem State.releasePins_inbox (s : State) : (s.releasePins).inbox = s.inbox := rfl
@[simp] theorem State.releasePins_result (s : State) : (s.releasePins).result = s.result := rfl

@[simp] theorem State.setLfsr_duty (s : State) (r : Word32) : (s.setLfsr r).duty = s.duty := rfl
@[simp] theorem State.setLfsr_tick (s : State) (r : Word32) : (s.setLfsr r).tick = s.tick := rfl
@[simp] theorem State.setLfsr_pin (s : State) (r : Word32) : (s.setLfsr r).pin = s.pin := rfl
@[simp] theorem State.setLfsr_phase (s : State) (r : Word32) : (s.setLfsr r).phase = s.phase := rfl
@[simp] theorem State.setLfsr_lfsr (s : State) (r : Word32) : (s.setLfsr r).lfsr = r := rfl
@[simp] theorem State.setLfsr_params (s : State) (r : Word32) : (s.setLfsr r).params = s.params := rfl
@[simp] theorem State.setLfsr_inbox (s : State) (r : Word32) : (s.setLfsr r).inbox = s.inbox := rfl
@[simp] theorem State.setLfsr_result (s : State) (r : Word32) : (s.setLfsr r).result = s.result := rfl

@[simp] theorem State.resetEvent_duty (s : State) : (s.resetEvent).duty = [] := rfl
@[simp] theorem State.resetEvent_tick (s : State) : (s.resetEvent).tick = 0 := rfl
@[simp] theorem State.resetEvent_pin (s : State) : (s.resetEvent).pin = List.replicate s.params.numChannels .unused := rfl
@[simp] theorem State.resetEvent_phase (s : State) : (s.resetEvent).phase = .pre := rfl
@[simp] theorem State.resetEvent_lfsr (s : State) : (s.resetEvent).lfsr = s.params.rngReset := rfl
@[simp] theorem State.resetEvent_params (s : State) : (s.resetEvent).params = s.params := rfl
@[simp] theorem State.resetEvent_inbox (s : State) : (s.resetEvent).inbox = s.inbox := rfl
@[simp] theorem State.resetEvent_result (s : State) : (s.resetEvent).result = none := rfl

@[simp] theorem State.present_duty (s : State) (w : Command) : (s.present w).duty = s.duty := rfl
@[simp] theorem State.present_tick (s : State) (w : Command) : (s.present w).tick = s.tick := rfl
@[simp] theorem State.present_pin (s : State) (w : Command) : (s.present w).pin = s.pin := rfl
@[simp] theorem State.present_phase (s : State) (w : Command) : (s.present w).phase = s.phase := rfl
@[simp] theorem State.present_lfsr (s : State) (w : Command) : (s.present w).lfsr = s.lfsr := rfl
@[simp] theorem State.present_params (s : State) (w : Command) : (s.present w).params = s.params := rfl
@[simp] theorem State.present_inbox (s : State) (w : Command) : (s.present w).inbox = .command w :: s.inbox := rfl
@[simp] theorem State.present_result (s : State) (w : Command) : (s.present w).result = s.result := rfl

@[simp] theorem State.resetWith_duty (p : Params) : (State.resetWith p).duty = [] := rfl
@[simp] theorem State.resetWith_tick (p : Params) : (State.resetWith p).tick = 0 := rfl
@[simp] theorem State.resetWith_pin (p : Params) : (State.resetWith p).pin = List.replicate p.numChannels .unused := rfl
@[simp] theorem State.resetWith_phase (p : Params) : (State.resetWith p).phase = .pre := rfl
@[simp] theorem State.resetWith_lfsr (p : Params) : (State.resetWith p).lfsr = p.rngReset := rfl
@[simp] theorem State.resetWith_params (p : Params) : (State.resetWith p).params = p := rfl
@[simp] theorem State.resetWith_inbox (p : Params) : (State.resetWith p).inbox = [] := rfl
@[simp] theorem State.resetWith_result (p : Params) : (State.resetWith p).result = none := rfl

end Sys2Proof.Machine
end

