-- ==== Sys2Proof/Laws/Ops.lean ====
section
/-! SUPPORT. For each shared operation, what it does, said once. -/

namespace Sys2Proof.Machine

/-! ### The parameters -/

theorem cycleLength_pos (p : Params) : 0 < p.cycleLength := Nat.pow_pos (by decide)

/-- `L` is a power of two that divides 256 twice over (R5, D7). -/
theorem cycleLength_mul (p : Params) : ∃ q, 2 ≤ q ∧ p.cycleLength * q = 256 := by
  obtain ⟨_, ⟨k, hk⟩, _, _⟩ := p
  refine ⟨2 ^ (8 - k), ?_, ?_⟩
  · calc 2 = 2 ^ 1 := rfl
      _ ≤ 2 ^ (8 - k) := Nat.pow_le_pow_right (by decide) (by omega)
  · show 2 ^ k * 2 ^ (8 - k) = 256
    rw [← Nat.pow_add, show k + (8 - k) = 8 by omega]

theorem cycleLength_le (p : Params) : p.cycleLength ≤ 128 := by
  obtain ⟨q, hq, h⟩ := cycleLength_mul p
  nlinarith

theorem feedback_bit_zero (p : Params) : p.feedback.getLsbD 0 = true := by
  show (p.feedbackHigh ++ 1#1).getLsbD 0 = true
  rw [BitVec.getLsbD_append]; rfl

/-! ### The channel space -/

/-- A read after a write: the byte written at its own backed index, every other index as before (R51, R52). -/
theorem channelRead_channelWrite (s : State) (c c' : Nat) (v : Byte) :
    (s.channelWrite c v).channelRead c' =
      if c' = c ∧ c < s.params.numChannels then v else s.channelRead c' := by
  simp only [State.channelRead, State.channelWrite]
  by_cases hc : c < s.params.numChannels
  · by_cases h : c' = c
    · subst h; simp [hc, Memory.read_write]
    · simp [hc, h, Memory.read_write]
  · simp [hc]

/-- A write to an unbacked index changes nothing at all (R52). -/
theorem channelWrite_unbacked {s : State} {c : Nat} (h : ¬ c < s.params.numChannels) (v : Byte) :
    s.channelWrite c v = s := by
  simp [State.channelWrite, h]

theorem channelRead_unbacked {s : State} {c : Nat} (h : ¬ c < s.params.numChannels) : s.channelRead c = 0x00 := by
  simp [State.channelRead, h]

/-! ### The PWM Engine -/

@[simp] theorem duties_length (s : State) : s.duties.length = s.params.numChannels := by simp [State.duties]

theorem mem_duties {s : State} {d : Nat} :
    d ∈ s.duties ↔ ∃ c, c < s.params.numChannels ∧ dutyValue (s.channelRead c) = d := by
  simp [State.duties]

@[simp] theorem pinsAt_length (s : State) (t : Nat) : (s.pinsAt t).length = s.params.numChannels := by
  simp [State.pinsAt]

/-- `UpdatePins` drives pin `c` by the duty of channel `c` (R105). -/
theorem pinsAt_getElem? (s : State) (t c : Nat) (h : c < s.params.numChannels) :
    (s.pinsAt t)[c]? = some (if isOn (dutyValue (s.channelRead c)) (threshold s.params t) then .on else .off) := by
  simp [State.pinsAt, State.duties, h]

/-- `UpdatePins` never sets a pin to UNUSED (R105). -/
theorem pinsAt_driven {s : State} {t : Nat} {p : Pin} (h : p ∈ s.pinsAt t) : p ≠ .unused := by
  simp only [State.pinsAt, List.mem_map] at h
  obtain ⟨d, _, rfl⟩ := h
  split <;> simp

/-- The set `S` of R106. -/
theorem mem_onDuties {s : State} {t d : Nat} :
    d ∈ s.onDuties t ↔
      (∃ c, c < s.params.numChannels ∧ dutyValue (s.channelRead c) = d) ∧ threshold s.params t < d := by
  simp [State.onDuties, mem_duties, isOn]

/-- `NextTick` is decided by the least ON duty, where a channel is ON (R106). -/
theorem nextTick_of_least {s : State} {t m : Nat} (hm : m ∈ s.onDuties t) (hl : ∀ d ∈ s.onDuties t, m ≤ d) :
    s.nextTick t = (m * s.params.cycleLength + 255) / 256 := by
  have : (s.onDuties t).min? = some m := List.min?_eq_some_iff.mpr ⟨hm, hl⟩
  simp [State.nextTick, this]

/-- `NextTick` is the wrap where no channel is ON (R106, D11). -/
theorem nextTick_of_none {s : State} {t : Nat} (h : s.onDuties t = []) : s.nextTick t = s.params.cycleLength := by
  simp [State.nextTick, h]

/-- The two cases of `NextTick`. -/
theorem nextTick_cases (s : State) (t : Nat) :
    (s.onDuties t = [] ∧ s.nextTick t = s.params.cycleLength) ∨
    (∃ m, m ∈ s.onDuties t ∧ (∀ d ∈ s.onDuties t, m ≤ d) ∧
      s.nextTick t = (m * s.params.cycleLength + 255) / 256) := by
  rcases h : (s.onDuties t).min? with _ | m
  · rw [List.min?_eq_none_iff] at h
    exact .inl ⟨h, nextTick_of_none h⟩
  · obtain ⟨hm, hl⟩ := List.min?_eq_some_iff.mp h
    exact .inr ⟨m, hm, hl, nextTick_of_least hm hl⟩

/-! ### The LFSR register -/

theorem pumpTimes_succ' (fb : Word32) (n : Nat) (r : Word32) : pumpTimes fb (n + 1) r = pump fb (pumpTimes fb n r) := by
  induction n generalizing r with
  | zero => rfl
  | succ n ih => exact ih (pump fb r)

theorem pumpTimes_add (fb : Word32) (m n : Nat) (r : Word32) :
    pumpTimes fb (m + n) r = pumpTimes fb m (pumpTimes fb n r) := by
  induction n generalizing r with
  | zero => rfl
  | succ n ih => exact ih (pump fb r)

/-- All that the rejection loop can answer: the value of the first accepted candidate after at most `fuel` pumps, or
none when all of the first `fuel` candidates are rejected. -/
theorem drawUntilAccepted_cases (fb : Word32) (maximum : Byte) (fuel : Nat) (r : Word32) :
    (∃ j, 1 ≤ j ∧ j ≤ fuel ∧ accepts (candidate maximum (pumpTimes fb j r)) maximum = true ∧
      (∀ i, 1 ≤ i → i < j → accepts (candidate maximum (pumpTimes fb i r)) maximum = false) ∧
      drawUntilAccepted fb maximum fuel r = some (pumpTimes fb j r)) ∨
    ((∀ i, 1 ≤ i → i ≤ fuel → accepts (candidate maximum (pumpTimes fb i r)) maximum = false) ∧
      drawUntilAccepted fb maximum fuel r = none) := by
  induction fuel generalizing r with
  | zero => exact .inr ⟨fun i h h' => by omega, rfl⟩
  | succ fuel ih =>
    have step (i : Nat) (hi : 1 ≤ i) : pumpTimes fb i r = pumpTimes fb (i - 1) (pump fb r) := by
      obtain ⟨k, rfl⟩ := Nat.exists_eq_add_of_le' hi
      rfl
    by_cases ha : accepts (candidate maximum (pump fb r)) maximum = true
    · exact .inl ⟨1, le_refl _, by omega, ha, fun i h h' => by omega, by simp [drawUntilAccepted, ha, pumpTimes]⟩
    · have hd : drawUntilAccepted fb maximum (fuel + 1) r = drawUntilAccepted fb maximum fuel (pump fb r) := by
        simp [drawUntilAccepted, ha]
      have rejected (i : Nat) (hi : 1 ≤ i) (h : 2 ≤ i →
          accepts (candidate maximum (pumpTimes fb (i - 1) (pump fb r))) maximum = false) :
          accepts (candidate maximum (pumpTimes fb i r)) maximum = false := by
        rcases Nat.lt_or_ge i 2 with h1 | h2
        · obtain rfl : i = 1 := by omega
          simpa [pumpTimes] using ha
        · rw [step i hi]; exact h h2
      rcases ih (pump fb r) with ⟨j, h1, hj, hacc, hrej, hdraw⟩ | ⟨hrej, hdraw⟩
      · refine .inl ⟨j + 1, by omega, by omega, hacc, fun i hi hij => ?_, by rw [hd, hdraw]; rfl⟩
        exact rejected i hi fun h2 => hrej (i - 1) (by omega) (by omega)
      · refine .inr ⟨fun i hi hij => ?_, by rw [hd, hdraw]⟩
        exact rejected i hi fun h2 => hrej (i - 1) (by omega) (by omega)

/-- The mask of a maximum of 0 is 0: its one candidate is 0 (R140). -/
theorem candidate_zero (r : Word32) : candidate 0 r = 0 := by
  show topByte r &&& rejectionMask 0 = 0
  rw [show rejectionMask 0 = 0#8 by decide]
  exact BitVec.and_zero

/-- All that `rng_get` can do, whatever the maximum: it completes with the first accepted candidate, after as many pumps
as candidates, or it hangs because the first `registerValues` candidates are all rejected (R140, R144, R145). -/
theorem execRngGet_cases (maximum : Byte) (s : State) :
    (∃ j, 1 ≤ j ∧ j ≤ registerValues ∧
      accepts (candidate maximum (pumpTimes s.params.feedback j s.lfsr)) maximum = true ∧
      (∀ i, 1 ≤ i → i < j → accepts (candidate maximum (pumpTimes s.params.feedback i s.lfsr)) maximum = false) ∧
      execRngGet maximum s = .next ((s.setLfsr (pumpTimes s.params.feedback j s.lfsr)).answer
        (candidate maximum (pumpTimes s.params.feedback j s.lfsr)))) ∨
    (maximum ≠ 0 ∧
      (∀ i, 1 ≤ i → i ≤ registerValues →
        accepts (candidate maximum (pumpTimes s.params.feedback i s.lfsr)) maximum = false) ∧
      execRngGet maximum s = .fault .rngGetNeverReturns) := by
  by_cases hm : maximum = 0
  · subst hm
    refine .inl ⟨1, le_refl _, by unfold registerValues; omega, by rw [candidate_zero]; rfl, fun i h h' => by omega, ?_⟩
    rw [candidate_zero]
    rfl
  · rcases drawUntilAccepted_cases s.params.feedback maximum registerValues s.lfsr with
      ⟨j, h1, hj, hacc, hrej, hdraw⟩ | ⟨hrej, hdraw⟩
    · exact .inl ⟨j, h1, hj, hacc, hrej, by rw [execRngGet, if_neg hm, hdraw]⟩
    · exact .inr ⟨hm, hrej, by rw [execRngGet, if_neg hm, hdraw]⟩

/-! ### The step -/

/-- All that can lead to a next state: nothing was presented, or the reset event, or a command that decodes to an
instruction whose meaning gives it. -/
theorem step_next_cases {s t : State} (h : step s = .next t) :
    (s.inbox = [] ∧ t = s) ∨
    (∃ rest, s.inbox = .reset :: rest ∧ t = ({ s with inbox := rest } : State).resetEvent) ∨
    (∃ w i rest, s.inbox = .command w :: rest ∧ decode w = .ok i ∧ exec i { s with inbox := rest } = .next t) := by
  unfold step State.takeInput at h
  rcases hb : s.inbox with _ | ⟨x, rest⟩
  · rw [hb] at h
    exact .inl ⟨rfl, (Host.Outcome.next.inj h).symm⟩
  · rw [hb] at h
    cases x with
    | reset => exact .inr (.inl ⟨rest, rfl, (Host.Outcome.next.inj h).symm⟩)
    | command w =>
      simp only at h
      rcases hd : decode w with e | i
      · rw [hd] at h; cases h
      · rw [hd] at h
        exact .inr (.inr ⟨w, i, rest, rfl, hd, h⟩)

end Sys2Proof.Machine
end

