-- ==== Sys2Proof/Laws/MaximalLength.lean ====
section
/-! SUPPORT. The illustrative feedback constant 0x00400007 of 95_test_vectors.md is of maximal length: the register runs
through all 2^32 - 1 non-zero values. It shows that the hypothesis FB_PRIMITIVE of R6 can be met; nothing of the
machine rests on it. The argument: a pump respects XOR, so 1 pumped `a + b` times is the product of 1 pumped `a` and
`b` times; squarings show that 2^32 - 1 pumps bring 1 back and that no quotient of it by a prime factor does. -/

namespace Sys2Proof.Laws

open Sys2Proof.Machine

/-- A map of register values that respects XOR. -/
def XorLinear (g : Word32 → Word32) : Prop := ∀ a b, g (a ^^^ b) = g a ^^^ g b

theorem XorLinear.zero {g : Word32 → Word32} (hg : XorLinear g) : g 0 = 0 := by
  have := hg 0 0
  simpa using this

theorem pump_linear (fb : Word32) : XorLinear (pump fb) := by
  intro a b
  have hs : (a ^^^ b) <<< 1 = a <<< 1 ^^^ b <<< 1 := BitVec.shiftLeft_xor_distrib ..
  unfold pump
  rw [BitVec.getLsbD_xor, hs]
  cases a.getLsbD 31 <;> cases b.getLsbD 31 <;> simp
  · ac_rfl
  · ac_rfl
  · calc a <<< 1 ^^^ b <<< 1 = a <<< 1 ^^^ b <<< 1 ^^^ (fb ^^^ fb) := by simp
      _ = _ := by ac_rfl

theorem pumpTimes_linear (fb : Word32) (n : Nat) : XorLinear (pumpTimes fb n) := by
  induction n with
  | zero => exact fun _ _ => rfl
  | succ n ih => intro a b; simp only [pumpTimes]; rw [pump_linear, ih]

/-- The XOR of the columns at the set bits of `v`. -/
def combine : List Word32 → Word32 → Word32
  | [], _ => 0
  | c :: cs, v => (if v.getLsbD 0 then c else 0) ^^^ combine cs (v >>> 1)

/-- The columns of a map: its values at the single bits from `j` on. -/
def columns (g : Word32 → Word32) (j : Nat) : Nat → List Word32
  | 0 => []
  | n + 1 => g (BitVec.twoPow 32 j) :: columns g (j + 1) n

/-- A value shifted left is its lowest bit and the rest, shifted left. -/
theorem shiftLeft_split (v : Word32) (j : Nat) :
    v <<< j = (if v.getLsbD 0 then BitVec.twoPow 32 j else 0) ^^^ ((v >>> 1) <<< (j + 1)) := by
  apply BitVec.eq_of_getLsbD_eq
  intro i hi
  have h0 : ((if v.getLsbD 0 then BitVec.twoPow 32 j else 0).getLsbD i) = (v.getLsbD 0 && decide (j = i)) := by
    cases v.getLsbD 0
    · simp
    · simp only [if_true, BitVec.getLsbD_twoPow]; simp; omega
  rw [BitVec.getLsbD_xor, h0, BitVec.getLsbD_shiftLeft, BitVec.getLsbD_shiftLeft, BitVec.getLsbD_ushiftRight]
  rcases Nat.lt_trichotomy i j with h | h | h
  · simp [h, show i < j + 1 by omega, show j ≠ i by omega]
  · subst h; simp [hi]
  · simp [hi, show ¬ i < j by omega, show ¬ i < j + 1 by omega, show j ≠ i by omega,
      show 1 + (i - (j + 1)) = i - j by omega]

theorem combine_columns {g : Word32 → Word32} (hg : XorLinear g) (n j : Nat) (v : Word32) (h : j + n = 32) :
    combine (columns g j n) v = g (v <<< j) := by
  induction n generalizing j v with
  | zero =>
    obtain rfl : j = 32 := by omega
    have : v <<< 32 = 0 := by simp
    rw [this, hg.zero]
    rfl
  | succ n ih =>
    simp only [columns, combine]
    rw [ih (j + 1) (v >>> 1) (by omega), shiftLeft_split v j, hg]
    congr 1
    split
    · rfl
    · exact hg.zero.symm

theorem combine_all {g : Word32 → Word32} (hg : XorLinear g) (v : Word32) : combine (columns g 0 32) v = g v := by
  rw [combine_columns hg 32 0 v rfl, BitVec.shiftLeft_zero]

/-- A value and the next ones, each the pump of the one before. -/
def orbit (fb : Word32) : Word32 → Nat → List Word32
  | _, 0 => []
  | x, n + 1 => x :: orbit fb (pump fb x) n

theorem pump_twoPow (fb : Word32) {j : Nat} (h : j < 31) : pump fb (BitVec.twoPow 32 j) = BitVec.twoPow 32 (j + 1) := by
  have : (BitVec.twoPow 32 j).getLsbD 31 = false := by
    rw [BitVec.getLsbD_twoPow]; simp; omega
  rw [pump, if_neg (by rw [this]; exact Bool.false_ne_true)]
  apply BitVec.eq_of_getLsbD_eq
  intro i hi
  rw [BitVec.getLsbD_shiftLeft, BitVec.getLsbD_twoPow, BitVec.getLsbD_twoPow]
  rcases Nat.eq_zero_or_pos i with rfl | h0
  · simp
  · simp [hi, show j < 32 by omega, show j + 1 < 32 by omega, show ¬ i < 1 by omega,
      show (j = i - 1) = (j + 1 = i) by apply propext; omega]

/-- The single bits are the pumps of 1, so the columns of a map that commutes with the pump are the orbit of its value
at 1. -/
theorem columns_eq_orbit {fb : Word32} {g : Word32 → Word32} (hc : ∀ x, g (pump fb x) = pump fb (g x)) (n j : Nat)
    (h : j + n ≤ 32) : columns g j n = orbit fb (g (BitVec.twoPow 32 j)) n := by
  induction n generalizing j with
  | zero => rfl
  | succ n ih =>
    simp only [columns, orbit]
    congr 1
    cases n with
    | zero => rfl
    | succ n => rw [ih (j + 1) (by omega), ← pump_twoPow fb (by omega : j < 31), hc]

theorem pumpTimes_pump (fb : Word32) (n : Nat) (x : Word32) :
    pumpTimes fb n (pump fb x) = pump fb (pumpTimes fb n x) := by
  induction n generalizing x with
  | zero => rfl
  | succ n ih => exact ih (pump fb x)

/-- Multiplication of register values: where `x` is 1 pumped `k` times, `mul x y` is `y` pumped `k` times. -/
def mul (fb x y : Word32) : Word32 := combine (orbit fb x 32) y

theorem mul_eq (fb : Word32) (k : Nat) (y : Word32) : mul fb (pumpTimes fb k 1) y = pumpTimes fb k y := by
  have := columns_eq_orbit (fun x => pumpTimes_pump fb k x) 32 0 (le_refl _)
  rw [mul, show (1 : Word32) = BitVec.twoPow 32 0 from rfl, ← this, combine_all (pumpTimes_linear fb k)]

/-- Each value pumped as often as the number beside it, where `c` is 1 pumped `2^m` times: all numbers' binary digits
are taken together, `n` of them. -/
def pumpAll (fb : Word32) : Nat → Word32 → List (Nat × Word32) → List Word32
  | 0, _, xs => xs.map (·.2)
  | n + 1, c, xs =>
    pumpAll fb n (mul fb c c) (xs.map fun x => (x.1 / 2, if x.1 % 2 = 1 then mul fb c x.2 else x.2))

theorem pumpAll_eq (fb : Word32) (n m : Nat) (xs : List (Nat × Word32)) (h : ∀ x ∈ xs, x.1 < 2 ^ n) :
    pumpAll fb n (pumpTimes fb (2 ^ m) 1) xs = xs.map fun x => pumpTimes fb (2 ^ m * x.1) x.2 := by
  induction n generalizing m xs with
  | zero =>
    refine List.map_congr_left fun x hx => ?_
    have h0 : x.1 = 0 := by simpa using h x hx
    rw [h0]; rfl
  | succ n ih =>
    have hc : mul fb (pumpTimes fb (2 ^ m) 1) (pumpTimes fb (2 ^ m) 1) = pumpTimes fb (2 ^ (m + 1)) 1 := by
      rw [mul_eq, ← pumpTimes_add]; congr 1; ring
    rw [pumpAll, hc, ih (m + 1) _ (by
      intro x hx
      obtain ⟨y, hy, rfl⟩ := List.mem_map.mp hx
      have := h y hy
      rw [Nat.pow_succ] at this
      show y.1 / 2 < 2 ^ n
      omega), List.map_map]
    refine List.map_congr_left fun x _ => ?_
    simp only [Function.comp]
    split
    · next hodd =>
      rw [mul_eq, ← pumpTimes_add]
      congr 1
      calc 2 ^ (m + 1) * (x.1 / 2) + 2 ^ m = 2 ^ m * (2 * (x.1 / 2) + 1) := by ring
        _ = 2 ^ m * x.1 := by congr 1; omega
    · next heven =>
      congr 1
      calc 2 ^ (m + 1) * (x.1 / 2) = 2 ^ m * (2 * (x.1 / 2)) := by ring
        _ = 2 ^ m * x.1 := by congr 1; omega

/-- The spec's second illustrative feedback constant (93_implementation_defined.md, part 2). -/
def illustrativeFb : Word32 := 0x00400007

theorem pumpTimes_mul_fixed {fb r : Word32} {d : Nat} (h : pumpTimes fb d r = r) (k : Nat) :
    pumpTimes fb (d * k) r = r := by
  induction k with
  | zero => rfl
  | succ k ih => rw [Nat.mul_succ, pumpTimes_add, h, ih]

/-- The least positive period of a value that has one divides every period. -/
theorem period_dvd {fb r : Word32} {d n : Nat} (hd : 0 < d) (h : pumpTimes fb d r = r)
    (hmin : ∀ k, 0 < k → k < d → pumpTimes fb k r ≠ r) (hn : pumpTimes fb n r = r) : d ∣ n := by
  have hm : pumpTimes fb (n % d) r = r := by
    have := hn
    rw [← Nat.mod_add_div n d, pumpTimes_add, pumpTimes_mul_fixed h] at this
    exact this
  by_contra hnd
  exact hmin (n % d) (Nat.pos_of_ne_zero fun h0 => hnd (Nat.dvd_of_mod_eq_zero h0)) (Nat.mod_lt _ hd) hm

theorem prime_factor {q : Nat} (hq : q.Prime) (h : q ∣ 2 ^ 32 - 1) : q ∈ [3, 5, 17, 257, 65537] := by
  rw [show 2 ^ 32 - 1 = 3 * 5 * 17 * 257 * 65537 by norm_num] at h
  have e {p : Nat} (hp : p.Prime) (hd : q ∣ p) : q = p := (Nat.prime_dvd_prime_iff_eq hq hp).mp hd
  rcases (Nat.Prime.dvd_mul hq).mp h with h | h
  · rcases (Nat.Prime.dvd_mul hq).mp h with h | h
    · rcases (Nat.Prime.dvd_mul hq).mp h with h | h
      · rcases (Nat.Prime.dvd_mul hq).mp h with h | h
        · simp [e (by norm_num) h]
        · simp [e (by norm_num) h]
      · simp [e (by norm_num) h]
    · simp [e (by norm_num) h]
  · simp [e (by norm_num) h]

/-- The pump counts that decide the period of 1: 2^32 - 1 and its quotients by its prime factors. -/
def counts : List Nat := (2 ^ 32 - 1) :: [3, 5, 17, 257, 65537].map fun q => (2 ^ 32 - 1) / q

theorem pumpAll_counts :
    counts.map (fun k => pumpTimes illustrativeFb k 1) = pumpAll illustrativeFb 32 (pump illustrativeFb 1) (counts.map fun k => (k, 1)) := by
  rw [show pump illustrativeFb 1 = pumpTimes illustrativeFb (2 ^ 0) 1 from rfl, pumpAll_eq illustrativeFb 32 0 _ (by decide), List.map_map]
  refine List.map_congr_left fun k _ => ?_
  simp

theorem computed : (pumpAll illustrativeFb 32 (pump illustrativeFb 1) (counts.map fun k => (k, 1))).map (fun r => decide (r = 1)) =
    [true, false, false, false, false, false] := by decide +kernel

theorem returns_at : counts.map (fun k => decide (pumpTimes illustrativeFb k 1 = 1)) = [true, false, false, false, false, false] := by
  have := congrArg (List.map fun r => decide (r = 1)) pumpAll_counts
  rw [computed, List.map_map] at this
  exact this

theorem one_returns : pumpTimes illustrativeFb (2 ^ 32 - 1) 1 = 1 := by
  have := returns_at
  simp only [counts, List.map_cons, List.cons.injEq] at this
  exact of_decide_eq_true this.1

theorem one_returns_no_sooner {q : Nat} (h : q ∈ [3, 5, 17, 257, 65537]) : pumpTimes illustrativeFb ((2 ^ 32 - 1) / q) 1 ≠ 1 := by
  have := returns_at
  simp only [counts, List.map_cons, List.cons.injEq, List.map_nil, and_true] at this
  obtain ⟨-, h1, h2, h3, h4, h5⟩ := this
  simp only [List.mem_cons, List.not_mem_nil, or_false] at h
  rcases h with rfl | rfl | rfl | rfl | rfl
  · exact of_decide_eq_false h1
  · exact of_decide_eq_false h2
  · exact of_decide_eq_false h3
  · exact of_decide_eq_false h4
  · exact of_decide_eq_false h5

/-- The least positive period of 1 is 2^32 - 1. -/
theorem one_period (k : Nat) (h0 : 0 < k) (hk : k < 2 ^ 32 - 1) : pumpTimes illustrativeFb k 1 ≠ 1 := by
  intro hret
  classical
  have hex : ∃ d, 0 < d ∧ pumpTimes illustrativeFb d 1 = 1 := ⟨k, h0, hret⟩
  obtain ⟨hd0, hd1⟩ := Nat.find_spec hex
  have hmin : ∀ j, 0 < j → j < Nat.find hex → pumpTimes illustrativeFb j 1 ≠ 1 := fun j hj hlt he => Nat.find_min hex hlt ⟨hj, he⟩
  have hlt : Nat.find hex < 2 ^ 32 - 1 := Nat.lt_of_le_of_lt (Nat.find_min' hex ⟨h0, hret⟩) hk
  generalize Nat.find hex = d at hd0 hd1 hmin hlt
  obtain ⟨m, hm⟩ := period_dvd hd0 hd1 hmin one_returns
  have hm1 : m ≠ 1 := by rintro rfl; omega
  obtain ⟨q, hq, hqm⟩ := Nat.exists_prime_and_dvd hm1
  obtain ⟨m', rfl⟩ := hqm
  have hdiv : (2 ^ 32 - 1) / q = d * m' := by
    rw [hm, show d * (q * m') = q * (d * m') by ring, Nat.mul_div_cancel_left _ hq.pos]
  refine one_returns_no_sooner (prime_factor hq ⟨d * m', by rw [hm]; ring⟩) ?_
  rw [hdiv]
  exact pumpTimes_mul_fixed hd1 m'

theorem pump_ne_zero {fb r : Word32} (h : fb.getLsbD 0 = true) (hr : r ≠ 0) : pump fb r ≠ 0 := by
  intro h0
  have bit (i : Nat) : (pump fb r).getLsbD i = false := by rw [h0]; simp
  unfold pump at bit
  by_cases h31 : r.getLsbD 31 = true
  · have := bit 0
    rw [if_pos h31, BitVec.getLsbD_xor, h] at this
    simp at this
  · refine hr (BitVec.eq_of_getLsbD_eq fun i hi => ?_)
    rw [if_neg h31] at bit
    rcases Nat.lt_or_ge i 31 with hlt | hge
    · have := bit (i + 1)
      rw [BitVec.getLsbD_shiftLeft] at this
      rw [show (0 : Word32).getLsbD i = false from BitVec.getLsbD_zero]
      exact (by simpa [hlt] using this : i + 1 < 32 → r.getLsbD i = false) (by omega)
    · obtain rfl : i = 31 := by omega
      simpa using h31

theorem pumpTimes_ne_zero {fb r : Word32} (h : fb.getLsbD 0 = true) (hr : r ≠ 0) (n : Nat) : pumpTimes fb n r ≠ 0 := by
  induction n generalizing r with
  | zero => exact hr
  | succ n ih => exact ih (pump_ne_zero h hr)

theorem pump_injective {fb : Word32} (h : fb.getLsbD 0 = true) : Function.Injective (pump fb) := by
  intro a b hab
  by_contra hne
  refine pump_ne_zero h (r := a ^^^ b) (fun h0 => hne (by simpa using h0)) ?_
  rw [pump_linear, hab, BitVec.xor_self]; rfl

theorem pumpTimes_injective {fb : Word32} (h : fb.getLsbD 0 = true) (n : Nat) : Function.Injective (pumpTimes fb n) := by
  induction n with
  | zero => exact fun _ _ h => h
  | succ n ih => exact fun a b hab => pump_injective h (ih hab)

/-- The register runs through all non-zero values from 1. -/
theorem orbit_of_one (n : Nat) (hn : n = 2 ^ 32 - 1) (r : Word32) (hr : r ≠ 0) : ∃ j, j < n ∧ pumpTimes illustrativeFb j 1 = r := by
  classical
  have hfb : illustrativeFb.getLsbD 0 = true := by decide
  let e : Word32 ≃ Fin (2 ^ 32) := BitVec.equivFin.toEquiv
  have : Fintype Word32 := Fintype.ofEquiv _ e.symm
  have hcard : (Finset.univ.erase (0 : Word32)).card = n := by
    rw [Finset.card_erase_of_mem (Finset.mem_univ _), Finset.card_univ, Fintype.card_congr e, Fintype.card_fin, hn]
  have hinj : Set.InjOn (fun j => pumpTimes illustrativeFb j 1) (Finset.range n : Set Nat) := by
    have key : ∀ a b, a < b → b < n → pumpTimes illustrativeFb a 1 ≠ pumpTimes illustrativeFb b 1 := by
      intro a b hab hb heq
      rw [show b = a + (b - a) by omega, pumpTimes_add] at heq
      exact one_period (b - a) (by omega) (by omega) (pumpTimes_injective hfb a heq).symm
    intro a ha b hb heq
    have ha := Finset.mem_range.mp ha
    have hb := Finset.mem_range.mp hb
    rcases Nat.lt_trichotomy a b with h | h | h
    · exact absurd heq (key a b h hb)
    · exact h
    · exact absurd heq.symm (key b a h ha)
  have himg : (Finset.range n).image (fun j => pumpTimes illustrativeFb j 1) = Finset.univ.erase 0 := by
    apply Finset.eq_of_subset_of_card_le
    · intro x hx
      obtain ⟨j, _, rfl⟩ := Finset.mem_image.mp hx
      exact Finset.mem_erase.mpr ⟨pumpTimes_ne_zero hfb (by decide) j, Finset.mem_univ _⟩
    · rw [hcard, Finset.card_image_of_injOn hinj, Finset.card_range]
  have : r ∈ (Finset.range n).image (fun j => pumpTimes illustrativeFb j 1) := by
    rw [himg]; exact Finset.mem_erase.mpr ⟨hr, Finset.mem_univ _⟩
  obtain ⟨j, hj, rfl⟩ := Finset.mem_image.mp this
  exact ⟨j, Finset.mem_range.mp hj, rfl⟩

/-- The illustrative constant is of maximal length, so the named hypothesis FB_PRIMITIVE can be met. -/
theorem illustrativeFb_maximalLength : ∀ r r' : Word32, r ≠ 0 → r' ≠ 0 → ∃ n, pumpTimes illustrativeFb n r = r' := by
  intro r r' hr hr'
  obtain ⟨a, ha, rfl⟩ := orbit_of_one _ rfl r hr
  obtain ⟨b, hb, rfl⟩ := orbit_of_one _ rfl r' hr'
  refine ⟨b + (2 ^ 32 - 1 - a), ?_⟩
  rw [← pumpTimes_add, show b + (2 ^ 32 - 1 - a) + a = b + (2 ^ 32 - 1) by omega, pumpTimes_add, one_returns]

end Sys2Proof.Laws
end

