-- ==== Sys2Proof/Laws/Observation.lean ====
section
/-! SUPPORT. What a run's history records. -/

namespace Sys2Proof.Machine

@[simp] theorem State.beginHistory_intervals (s : State) : s.beginHistory.intervals = [] := rfl
@[simp] theorem State.beginHistory_asked (s : State) : s.beginHistory.asked = none := rfl
@[simp] theorem State.beginHistory_state (s : State) : s.beginHistory.state = s := rfl

@[simp] theorem RunHistory.record_intervals (h : RunHistory) (i : Instr) (t : State) :
    (h.record i t).intervals = h.intervals ++ h.endedBy i := rfl
@[simp] theorem RunHistory.record_asked (h : RunHistory) (i : Instr) (t : State) :
    (h.record i t).asked = if i.isCycleFamily then t.result else h.asked := rfl
@[simp] theorem RunHistory.record_state (h : RunHistory) (i : Instr) (t : State) : (h.record i t).state = t := rfl

@[simp] theorem RunHistory.run_nil (h : RunHistory) : RunHistory.run [] h = .next h := rfl

/-- A run of one instruction more: it has a next state, and the rest runs on from there. -/
theorem RunHistory.run_cons_next {i : Instr} {rest : List Instr} {h h' : RunHistory} :
    RunHistory.run (i :: rest) h = .next h' ↔
      ∃ t, exec i h.state = .next t ∧ RunHistory.run rest (h.record i t) = .next h' := by
  simp only [RunHistory.run]
  cases exec i h.state <;> simp

/-- A run in two parts. -/
theorem RunHistory.run_append {first rest : List Instr} {h h' : RunHistory} :
    RunHistory.run (first ++ rest) h = .next h' ↔
      ∃ m, RunHistory.run first h = .next m ∧ RunHistory.run rest m = .next h' := by
  induction first generalizing h with
  | nil => simp
  | cons i first ih => simp only [List.cons_append, RunHistory.run_cons_next, ih]; aesop

/-- A command that is none of the `pwm_cycle` family ends no interval and asks for no wake. -/
theorem RunHistory.record_other {i : Instr} (hi : i.isCycleFamily = false) (h : RunHistory) (t : State) :
    h.record i t = { h with state := t } := by
  cases i <;> simp_all [RunHistory.record, RunHistory.endedBy, Instr.isCycleFamily]

/-- A host that wakes the engine exactly when asked wakes it in time (R120 (ii), H5). -/
theorem RunHistory.wakesInTime_of_followsWakes {h : RunHistory} (hf : h.FollowsWakes) : h.WakesInTime :=
  fun i hi hr => ⟨i.elapsed, hf i hi hr, BitVec.le_refl _⟩

theorem window_append (a b : List Interval) : window (a ++ b) = window a + window b := by
  induction a with
  | nil => simp [window]
  | cons i a ih => simp [window, ih, Nat.add_assoc]

theorem onTime_append (c : Nat) (a b : List Interval) : onTime c (a ++ b) = onTime c a + onTime c b := by
  induction a with
  | nil => simp [onTime]
  | cons i a ih => simp [onTime, ih, Nat.add_assoc]

end Sys2Proof.Machine
end

