-- ==== Sys2Proof/Laws/PerInstr.lean ====
section
/-! SUPPORT. Per-instruction facts: each well-formed instruction's word meets the match bits, the mask and the side
condition of its own row of the opcode table (R77). -/

namespace Sys2Proof.Laws

/-- The mnemonic of an instruction's row (R77). -/
def rowMnemonic : Instr → String
  | .pwmSet _ _ => "pwm_set"
  | .pwmGet _ => "pwm_get"
  | .pwmCycleStartup => "pwm_cycle.startup"
  | .pwmCycleShutdown => "pwm_cycle.shutdown"
  | .pwmCycle _ => "pwm_cycle"
  | .rngPump => "rng_pump"
  | .rngAddEntropy _ => "rng_add_entropy"
  | .rngGet _ => "rng_get"

/-- Its row meets the instruction's word and rebuilds the instruction from the word's operand fields. -/
def EncodingInRow.Statement (i : Instr) : Prop :=
  i.wellFormed = true → ∃ r ∈ opcodeRows, r.mnemonic = rowMnemonic i ∧
    encode i &&& r.maskBits = r.matchBits ∧ r.side (aField (encode i)) = true ∧
    r.build (aField (encode i)) (bField (encode i)) = i

/-- The mask of `pwm_set` keeps the opcode alone. -/
theorem and_mask_opcode (op a b : Byte) : commandWord op a b &&& 0xFF0000 = commandWord op 0 0 := by
  rw [show (0xFF0000 : Command) = commandWord 0xFF 0 0 from rfl, and_commandWord]
  simp [show op &&& 255#8 = op from BitVec.and_allOnes]

/-- The mask of the rows with one operand byte keeps the opcode and the must-be-zero byte. -/
theorem and_mask_one_operand (op a b : Byte) : commandWord op a b &&& 0xFF00FF = commandWord op 0 b := by
  rw [show (0xFF00FF : Command) = commandWord 0xFF 0 0xFF from rfl, and_commandWord]
  simp [show op &&& 255#8 = op from BitVec.and_allOnes, show b &&& 255#8 = b from BitVec.and_allOnes]

theorem EncodingInRow.pwmSet (ch duty : Byte) : EncodingInRow.Statement (.pwmSet ch duty) := fun _ =>
  ⟨_, .head _, rfl, and_mask_opcode _ _ _, rfl, by simp [encode]⟩

theorem EncodingInRow.pwmGet (ch : Byte) : EncodingInRow.Statement (.pwmGet ch) := fun _ =>
  ⟨_, .tail _ (.head _), rfl, and_mask_one_operand _ _ _, rfl, by simp [encode]⟩

theorem EncodingInRow.pwmCycleStartup : EncodingInRow.Statement .pwmCycleStartup := fun _ =>
  ⟨_, .tail _ (.tail _ (.head _)), rfl, rfl, rfl, rfl⟩

theorem EncodingInRow.pwmCycleShutdown : EncodingInRow.Statement .pwmCycleShutdown := fun _ =>
  ⟨_, .tail _ (.tail _ (.tail _ (.head _))), rfl, rfl, rfl, rfl⟩

theorem EncodingInRow.pwmCycle (elapsed : Byte) : EncodingInRow.Statement (.pwmCycle elapsed) := fun h => by
  refine ⟨_, .tail _ (.tail _ (.tail _ (.tail _ (.head _)))), rfl,
    and_mask_one_operand _ _ _, ?_, by simp [encode]⟩
  simp only [encode, aField_commandWord]
  revert h elapsed
  decide

theorem EncodingInRow.rngPump : EncodingInRow.Statement .rngPump := fun _ =>
  ⟨_, .tail _ (.tail _ (.tail _ (.tail _ (.tail _ (.head _))))), rfl, rfl, rfl, rfl⟩

theorem EncodingInRow.rngAddEntropy (entropy : Byte) : EncodingInRow.Statement (.rngAddEntropy entropy) := fun _ =>
  ⟨_, .tail _ (.tail _ (.tail _ (.tail _ (.tail _ (.tail _ (.head _)))))), rfl,
    and_mask_one_operand _ _ _, rfl, by simp [encode]⟩

theorem EncodingInRow.rngGet (maximum : Byte) : EncodingInRow.Statement (.rngGet maximum) := fun _ =>
  ⟨_, .tail _ (.tail _ (.tail _ (.tail _ (.tail _ (.tail _ (.tail _ (.head _))))))), rfl,
    and_mask_one_operand _ _ _, rfl, by simp [encode]⟩

end Sys2Proof.Laws
end

