-- ==== Sys2Proof/Machine/Assembler.lean ====
section
/-! DEFINITION. The textual form of a command and its aliases (R82, R83). No rule of the block reads it. A line is a
list of characters. -/

namespace Sys2Proof.Machine

/-- A line without its comment, which runs from `;` to the end (R82). -/
def withoutComment (line : List Char) : List Char := line.takeWhile (· != ';')

/-- A text without the blanks before it and after it. -/
def trimBlanks (text : List Char) : List Char :=
  ((text.dropWhile (· == ' ')).reverse.dropWhile (· == ' ')).reverse

/-- The operands of a text, separated by commas (R82). -/
def splitCommas : List Char → List (List Char)
  | [] => [[]]
  | c :: rest =>
    match splitCommas rest with
    | [] => [[c]]
    | first :: others => if c = ',' then [] :: first :: others else (c :: first) :: others

/-- The value of a digit in base 10 or 16. -/
def digitValue (base : Nat) (c : Char) : Option Nat :=
  let v :=
    if '0' ≤ c ∧ c ≤ '9' then some (c.toNat - '0'.toNat)
    else if 'a' ≤ c ∧ c ≤ 'f' then some (c.toNat - 'a'.toNat + 10)
    else if 'A' ≤ c ∧ c ≤ 'F' then some (c.toNat - 'A'.toNat + 10)
    else none
  v.filter (· < base)

/-- The number that digits continue, from a value read so far. -/
def digitsValue (base : Nat) : Nat → List Char → Option Nat
  | acc, [] => some acc
  | acc, c :: rest =>
    match digitValue base c with
    | some d => digitsValue base (acc * base + d) rest
    | none => none

/-- A number, decimal or hexadecimal with `0x` (R82). -/
def numberValue : List Char → Option Nat
  | [] => none
  | '0' :: 'x' :: c :: rest => digitsValue 16 0 (c :: rest)
  | c :: rest => digitsValue 10 0 (c :: rest)

/-- A number that fits an operand byte (R73). -/
def numberByte (text : List Char) : Option Byte :=
  match numberValue text with
  | some v => if v < 256 then some (BitVec.ofNat 8 v) else none
  | none => none

/-- A byte operand: a number or one of the names for 0xFF, 0x00 and 0xFF (R82). -/
def byteOperand (text : List Char) : Option Byte :=
  if text = "STARTUP".toList then some Config.startup
  else if text = "SHUTDOWN".toList then some Config.shutdown
  else if text = "IDLE".toList then some Config.idle
  else numberByte text

/-- A channel operand: a number or `D<n>` (R82). -/
def channelOperand : List Char → Option Byte
  | 'D' :: rest =>
    match digitsValue 10 0 rest with
    | some v => if rest ≠ [] ∧ v < 256 then some (BitVec.ofNat 8 v) else none
    | none => none
  | text => byteOperand text

/-- The operand of `pwm_cycle`: a sentinel's name, or a number from 1 to 254 (R82; log entry 17). -/
def cycleOperand (text : List Char) : Option Instr :=
  if text = "STARTUP".toList then some .pwmCycleStartup
  else if text = "SHUTDOWN".toList then some .pwmCycleShutdown
  else
    match numberByte text with
    | some e => if (Instr.pwmCycle e).wellFormed then some (.pwmCycle e) else none
    | none => none

/-- The instruction of a mnemonic or alias and its operands (R82, R83). -/
def instrOf (mnemonic : List Char) (operands : List (List Char)) : Option Instr :=
  let is := fun name : String => mnemonic = name.toList
  match operands with
  | [] =>
    if is "rng_pump" ∨ is "pump" then some .rngPump
    else if is "pwm_startup" then some .pwmCycleStartup
    else if is "pwm_shutdown" then some .pwmCycleShutdown
    else none
  | [x] =>
    if is "pwm_get" ∨ is "get" then (channelOperand x).map .pwmGet
    else if is "pwm_cycle" then cycleOperand x
    else if is "rng_add_entropy" ∨ is "random_add_entropy" ∨ is "add_entropy" then (byteOperand x).map .rngAddEntropy
    else if is "rng_get" ∨ is "random_get" then (byteOperand x).map .rngGet
    else none
  | [x, y] =>
    if is "pwm_set" ∨ is "set" then
      match channelOperand x, byteOperand y with
      | some ch, some duty => some (.pwmSet ch duty)
      | _, _ => none
    else none
  | _ => none

/-- The instruction of a line: the mnemonic, a space, and the operands separated by commas (R82). -/
def assembleLine (line : List Char) : Option Instr :=
  let text := trimBlanks (withoutComment line)
  let mnemonic := text.takeWhile (· != ' ')
  let rest := trimBlanks (text.dropWhile (· != ' '))
  instrOf mnemonic (if rest = [] then [] else (splitCommas rest).map trimBlanks)

/-- The word of a line: every line expands to exactly one (R83). -/
def assembleWord (line : List Char) : Option Command := (assembleLine line).map encode

end Sys2Proof.Machine
end

