-- ==== Sys2Proof/Tests/Slice0.lean ====
section
/-! SUPPORT. The model's own tests: expected results are the spec's worked vectors (95_test_vectors.md and the examples
of the rules), and one witness for the hypotheses of each statement. The feedback constants 0xB5B5B5B5 and 0x00400007
are the spec's illustrative values, not the hardware's. -/

namespace Sys2Proof.Tests

open Sys2Proof.Machine

/-! ### Helpers -/

/-- `n` channels, `L = 16`, `FB = 0xB5B5B5B5`, `RNG_RESET = 0`, as 95_test_vectors.md uses them. -/
def params (n : Fin 257) : Params := ⟨n, Config.defaultCycleLog2, 0x5ADADADA, 0⟩

/-- The block with `n` channels after reset. -/
def block (n : Fin 257) : State := State.resetWith (params n)

/-- Four channels with duties 40, C0, 00, FF (vector T4), in phase `ph`. -/
def fourDuties (ph : Phase) : State :=
  { block 4 with duty := [(0, 0x40), (1, 0xC0), (3, 0xFF)], phase := ph }

/-- The same in its session, right after the STARTUP call of T4. -/
def fourRunning : State := { fourDuties .run with pin := [.on, .on, .off, .on], result := some 4 }

/-- A block with register value `r`. -/
def withRegister (r : Word32) : State := { block 0 with lfsr := r }

/-- A block whose feedback constant is 1, so that a pump rotates and 0xFFFFFFFF is a fixed point. -/
def lockedAtOnes : State :=
  { State.resetWith ⟨0, Config.defaultCycleLog2, 0, 0⟩ with lfsr := 0xFFFFFFFF }

/-- The next state of an outcome. -/
def nextOf : Host.Outcome State Fault Refusal → Option State
  | .next s => some s
  | .fault _ => none
  | .refused _ => none

/-- The history of a run that has reached its end. -/
def historyOf : Host.Outcome RunHistory Fault Refusal → Option RunHistory
  | .next h => some h
  | .fault _ => none
  | .refused _ => none

/-- The answer and the state of a procedure that has reached its end. -/
def answerOf {A : Type} : Host.Outcome (A × State) Fault Refusal → Option (A × State)
  | .next x => some x
  | .fault _ => none
  | .refused _ => none

/-- The refusal of an outcome. -/
def refusalOf : Host.Outcome State Fault Refusal → Option Refusal
  | .next _ => none
  | .fault _ => none
  | .refused r => some r

/-- Tick, pins, phase and result of the next state. -/
def engine (o : Host.Outcome State Fault Refusal) : Option (Nat × List Pin × Phase × Option Byte) :=
  (nextOf o).map fun t => (t.tick, t.pin, t.phase, t.result)

/-- Register and result of the next state. -/
def generator (o : Host.Outcome State Fault Refusal) : Option (Word32 × Option Byte) :=
  (nextOf o).map fun t => (t.lfsr, t.result)

/-- One way to fill in what the spec leaves open of the Fade task. -/
def noDetails : FadeDetails := ⟨fun _ => Config.idle, fun _ _ => 0, fun f _ => f.accumulator,
  fun _ f => .done (Config.idle, f), fun _ _ => trivial⟩

/-- A host with the Fade task registered before the PWM Engine, fading channel 0. -/
def twoTasks : HostProgram Byte where
  tasks := [.fade, .engine]
  fadeChannels := [0]
  fadeDetails := noDetails
  ring := ⟨[], true, true⟩

/-- A host at the start of scenario A, its fade period 1. -/
def idleHost : HostState Byte := ⟨⟨255, 10, 1, 0⟩, ⟨0, 0⟩, 0⟩

/-! ### WellFormed: an ill-formed term for each check -/

theorem test_wellFormed_refuses_shutdown_as_elapsed : (Instr.pwmCycle 0x00).wellFormed = false := by decide
theorem test_wellFormed_refuses_startup_as_elapsed : (Instr.pwmCycle 0xFF).wellFormed = false := by decide
theorem test_wellFormed_elapsed_bounds :
    (Instr.pwmCycle 0x01).wellFormed = true ∧ (Instr.pwmCycle 0xFE).wellFormed = true := by decide

/-! ### Decode: words written out from R77 -/

theorem test_decode_pwm_set : decode 0b00000001_00000001_11000000#24 = .ok (.pwmSet 1 0xC0) := by decide
theorem test_decode_pwm_get : decode 0b00000010_00000011_00000000#24 = .ok (.pwmGet 3) := by decide
theorem test_decode_startup : decode 0b00000011_11111111_00000000#24 = .ok .pwmCycleStartup := by decide
theorem test_decode_shutdown : decode 0b00000011_00000000_00000000#24 = .ok .pwmCycleShutdown := by decide
theorem test_decode_pwm_cycle : decode 0b00000011_11111110_00000000#24 = .ok (.pwmCycle 254) := by decide
theorem test_decode_rng_pump : decode 0b00010000_00000000_00000000#24 = .ok .rngPump := by decide
theorem test_decode_rng_add_entropy : decode 0b00010001_10100111_00000000#24 = .ok (.rngAddEntropy 0xA7) := by decide
theorem test_decode_rng_get : decode 0b00010010_11111111_00000000#24 = .ok (.rngGet 255) := by decide

/-- T9: reserved operand fields. -/
theorem test_decode_reserved_fields :
    [0x020301#24, 0x03FF01#24, 0x030001#24, 0x030501#24, 0x100100#24, 0x100001#24, 0x11A701#24, 0x12FF80#24].all
      (fun w => decode w = .error .operandField) = true := by decide

/-- T9: reserved opcodes. -/
theorem test_decode_reserved_opcodes :
    [0x000000#24, 0x040000#24, 0x0F0000#24, 0x130000#24, 0x800000#24, 0xFFFFFF#24].all
      (fun w => decode w = .error .opcode) = true := by decide

theorem test_encode_words :
    encode (.pwmSet 1 0xC0) = 0x0101C0 ∧ encode .pwmCycleStartup = 0x03FF00 ∧ encode .pwmCycleShutdown = 0x030000 ∧
    encode (.pwmCycle 8) = 0x030800 ∧ encode (.rngGet 100) = 0x126400 := by decide

theorem test_decodeTableWord :
    decodeTableWord 24 0x030000 = some .pwmCycleShutdown ∧ decodeTableWord 24 0x010455 = some (.pwmSet 4 0x55) ∧
    decodeTableWord 24 0x110001 = none := by decide

/-- The word placed is the very next instruction that runs. -/
theorem test_withFetchWord :
    step (State.reset.withFetchWord 24 0x0201FF) = .refused .reservedOperandField ∧
    (nextOf (step ((block 4).withFetchWord 24 0x0101C0))).map (fun t => t.channelRead 1) = some 0xC0 := by
  exact ⟨rfl, by decide⟩

/-! ### PWM Engine -/

/-- T1 row 3 and R100. -/
theorem test_pwm_set_stores : (nextOf (exec (.pwmSet 1 0xC0) (block 4))).map
    (fun t => (t.channelRead 1, t.channelRead 0, t.result)) = some (0xC0, 0x00, some 0x00) := by decide

/-- T1 row 6: channel 4 = N is out of range. -/
theorem test_pwm_set_out_of_range :
    nextOf (exec (.pwmSet 4 0x55) (fourDuties .pre)) = some { fourDuties .pre with result := some 0x00 } := by decide

/-- T1 row 9. -/
theorem test_pwm_get_reads : (nextOf (exec (.pwmGet 1) (fourDuties .pre))).map (·.result) = some (some 0xC0) := by
  decide

/-- T1 row 13. -/
theorem test_pwm_get_out_of_range : (nextOf (exec (.pwmGet 255) (fourDuties .pre))).map (·.result) = some (some 0x00) := by
  decide

/-- T4 row 1. -/
theorem test_startup : engine (exec .pwmCycleStartup (fourDuties .pre)) =
    some (0, [.on, .on, .off, .on], .run, some 0x04) := by decide

/-- T8: a second STARTUP call. -/
theorem test_startup_refused_in_run : refusalOf (exec .pwmCycleStartup fourRunning) = some .startupOutsidePre := by
  decide

/-- T4 row 2. -/
theorem test_pwm_cycle : engine (exec (.pwmCycle 4) fourRunning) =
    some (4, [.off, .on, .off, .on], .run, some 0x08) := by decide

/-- T5 row 6: (7 + 200) mod 16 = 15, nothing ON, 1 ms to the wrap. -/
theorem test_pwm_cycle_long : engine (exec (.pwmCycle 200)
      { block 2 with duty := [(0, 0x64), (1, 0x11)], phase := .run, tick := 7 }) =
    some (15, [.off, .off], .run, some 0x01) := by decide

/-- R110's example: duties and tick survive. -/
theorem test_shutdown : nextOf (exec .pwmCycleShutdown { fourRunning with tick := 4 }) =
    some { fourRunning with tick := 4, phase := .halt, result := some 0x00,
                            pin := [.unused, .unused, .unused, .unused] } := by decide

/-- T8: SHUTDOWN before STARTUP. -/
theorem test_shutdown_refused_in_pre : refusalOf (exec .pwmCycleShutdown (block 1)) = some .shutdownOutsideRun := by
  decide

/-- T2: ON ticks of 0, 16, 17, 100, 240, 241, 255 for L = 16. -/
theorem test_onTicks : [0, 16, 17, 100, 240, 241, 255].map (onTicks (params 0)) = [0, 1, 2, 7, 15, 16, 16] := by decide

/-- The channel space keeps its canonical form: a 0x00 written removes the entry. -/
theorem test_memory_canonical :
    Memory.write [(0, 0x40), (3, 0xFF)] 1 0xC0 = [(0, 0x40), (1, 0xC0), (3, 0xFF)] ∧
    Memory.write [(0, 0x40), (3, 0xFF)] 3 0x00 = [(0, 0x40)] ∧ Memory.wf [(0, 0x40), (3, 0xFF)] := by decide

/-! ### Random Generator -/

/-- T11 row 2. -/
theorem test_rng_pump : generator (exec .rngPump (withRegister 0xFFFFFFFF)) = some (0x4A4A4A4B, some 0x00) := by decide

/-- T10: the fixed point and the carry between bytes hold for every feedback constant. -/
theorem test_rng_pump_any_feedback (fb : Word32) : pump fb 0 = 0 ∧ pump fb 0x00800000 = 0x01000000 := ⟨rfl, rfl⟩

/-- T12 row 6. -/
theorem test_rng_add_entropy : generator (exec (.rngAddEntropy 0xFF) (withRegister 0x12345678)) =
    some (0x12705E95, some 0x00) := by decide

/-- T12 row 3: the zero correction. -/
theorem test_rng_add_entropy_correction : generator (exec (.rngAddEntropy 0x5A) (withRegister 0x5A5A5A5A)) =
    some (0xB4B4B4D5, some 0x00) := by decide

/-- R140's example: one rejection. -/
theorem test_rng_get : generator (exec (.rngGet 100) (withRegister 0x383E29DE)) = some (0xE0F8A778, some 96) := by decide

/-- T14, right half, third command, under FB = 0x00400007. -/
theorem test_rng_get_other_feedback :
    generator (exec (.rngGet 255)
      { State.resetWith ⟨0, Config.defaultCycleLog2, 0x00200003, 0⟩ with lfsr := 0x1910925A }) =
    some (0x322124B4, some 0x32) := by decide

theorem locked_candidates (j : Nat) :
    pumpTimes lockedAtOnes.params.feedback j lockedAtOnes.lfsr = lockedAtOnes.lfsr := by
  induction j with
  | zero => rfl
  | succ j ih => exact ih

/-- U6: with every candidate 3 and a maximum of 2 the loop never accepts. -/
theorem test_rng_get_hang : exec (.rngGet 2) lockedAtOnes = .fault .rngGetNeverReturns := by
  have h : drawUntilAccepted lockedAtOnes.params.feedback 2 registerValues lockedAtOnes.lfsr = none := by
    rcases drawUntilAccepted_cases lockedAtOnes.params.feedback 2 registerValues lockedAtOnes.lfsr with
      ⟨j, _, _, hacc, _⟩ | ⟨_, h⟩
    · rw [locked_candidates] at hacc
      exact absurd hacc (by decide)
    · exact h
  show execRngGet 2 lockedAtOnes = _
  unfold execRngGet
  rw [if_neg (by decide), h]

/-! ### Inputs -/

/-- R232 and R230. -/
theorem test_waits_and_resets :
    nextOf (step fourRunning) = some fourRunning ∧
    nextOf (step { fourRunning with inbox := [.reset, .command 0x100000] }) =
      some { block 4 with inbox := [.command 0x100000] } := by decide

/-- T8: a reserved word. -/
theorem test_step_refuses_reserved_word : refusalOf (step ((block 1).present 0x000000)) = some .reservedOpcode := by
  decide

/-! ### Host procedures and assembler -/

/-- T17. -/
theorem test_adjust :
    [(0, 255, 10), (250, 255, 10), (5, 0, 10), (100, 50, 0), (100, 104, 3)].map
      (fun x : Byte × Byte × Byte => (⟨x.2.1, x.2.2, 0, 0⟩ : FadeState).adjust x.1) = [10, 255, 0, 100, 103] := by decide

/-- T18. -/
theorem test_circularDistance :
    [(1, 0), (0, 1), (250, 5), (128, 0), (0, 129)].map (fun x : Byte × Byte => circularDistance x.1 x.2) =
      [1, 0, 10, 127, 127] := by decide

/-- T19. -/
theorem test_twinkleDuty :
    [(49, 100), (75, 100), (99, 100), (51, 101), (2, 3), (126, 127)].map
      (fun x : Byte × Byte => twinkleDuty x.1 x.2) = [255, 127, 5, 250, 85, 2] := by decide

/-- T20: the intervals end with each `pwm_cycle`, whatever stands between; the pin is ON for 8 + 8 + 1 of 33 ms. -/
theorem test_onTime_across_pwm_set :
    (historyOf (RunHistory.run [.pwmCycleStartup, .pwmSet 0 0x80, .pwmCycle 16, .pwmSet 0 0xFF, .pwmCycle 8,
        .pwmSet 0 0x01, .pwmCycle 8, .pwmCycle 1, .pwmCycleShutdown] (block 1).beginHistory)).map
      (fun h => (h.intervals.length, h.window 4, h.onTime 0 4, h.window 5, h.onTime 0 5)) =
    some (5, 33, 17, 33, 17) := by decide

/-- The Fade task of P4's second line, at once due: 0 becomes 10, and it asks for its period again. -/
theorem test_fade_round : (answerOf (((⟨255, 10, 1, 0⟩ : FadeState).cycle noDetails [0] 1).run (block 1))).map
    (fun x => (x.1, x.2.channelRead 0)) = some ((1, ⟨255, 10, 1, 0⟩), 0x0A) := by decide

/-- One epoch, the engine after the Fade task (P4's order): the STARTUP call, with the engine's wake of 16 the least. -/
theorem test_epoch :
    (answerOf ((twoTasks.epoch Config.startup idleHost).run (block 1))).map (fun x => (x.1.1, x.2.phase)) =
      some (0x10, .run) ∧
    (twoTasks.session [⟨16, by decide⟩] idleHost).trace (block 1) =
      [.pwmCycleStartup, .pwmGet 0, .pwmSet 0 0x0A, .pwmCycle 16] := by decide

/-- R162: an aggregated wake of SHUTDOWN ends the loop with every task invoked once more. -/
theorem test_session_ends :
    ({ twoTasks with tasks := [.engine, .effect fun _ h => .done (Config.shutdown, h)] }.session
        [⟨16, by decide⟩] idleHost).trace (block 1) = [.pwmCycleStartup, .pwmCycleShutdown] := by decide

/-- R183: a setter recomputes every configured channel: T19's distances 49 and 75 at brightness 100. -/
theorem test_setBrightness : (answerOf (((⟨0, 0⟩ : TwinkleState).setBrightness ⟨[(0, 49), (1, 75)], true, false⟩ 100).run
    (block 2))).map (fun x => (x.1, x.2.channelRead 0, x.2.channelRead 1)) = some (⟨0, 100⟩, 255, 127) := by decide

/-- R82 and R83. -/
theorem test_assemble :
    assembleWord "pwm_set D1, 0xC0 ; half".toList = some 0x0101C0 ∧ assembleWord "pwm_cycle STARTUP".toList = some 0x03FF00 ∧
    assembleWord " pwm_shutdown".toList = some 0x030000 ∧ assembleWord "random_get 100".toList = some 0x126400 ∧
    assembleWord "pwm_cycle 255".toList = none ∧ assembleWord "add_entropy IDLE".toList = some 0x11FF00 := by decide

/-! ### Witnesses: a concrete state and operands that meet the hypotheses of each statement, clause by clause -/

theorem witness_DecodeOfEncodeIsTheInstruction :
    (Instr.pwmSet 255 0xFF).wellFormed = true ∧ (Instr.pwmCycle 1).wellFormed = true ∧
    (Instr.pwmCycle 254).wellFormed = true := by decide

theorem witness_ReservedOperandFieldsHaveNoStep :
    ((block 1).present 0x020001).inbox = .command 0x020001 :: [] ∧
    (opField 0x020001 ∈ [0x02, 0x03, 0x11, 0x12] ∧ bField 0x020001 ≠ 0x00) ∧
    (opField 0x12FFFF ∈ [0x02, 0x03, 0x11, 0x12] ∧ bField 0x12FFFF ≠ 0x00) ∧
    (opField 0x100100 = 0x10 ∧ aField 0x100100 ≠ 0x00) ∧ (opField 0x100001 = 0x10 ∧ bField 0x100001 ≠ 0x00) := by decide

theorem witness_ReservedOperandFieldsHaveNoStep_inverse :
    (Instr.pwmCycle 1).wellFormed = true ∧ ∀ reason, decode 0x03FE00 ≠ .error reason := by
  exact ⟨by decide, fun reason => by cases reason <;> decide⟩

theorem witness_ReservedOpcodesHaveNoStep :
    ((block 1).present 0x130000).inbox = .command 0x130000 :: [] ∧
    opField 0x130000 ∉ [0x01, 0x02, 0x03, 0x10, 0x11, 0x12] ∧
    opField 0x000000 ∉ [0x01, 0x02, 0x03, 0x10, 0x11, 0x12] := by decide

theorem witness_OpcodeRowsAreExclusive :
    (opcodeRows.map fun r => r.selects 0x03FF00) = [false, false, true, false, false, false, false, false] ∧
    (opcodeRows.map fun r => r.selects 0x000000).all (· == false) = true := by decide

theorem witness_StepRunsTheDecodedInstruction :
    ((block 1).present 0x03FF00).inbox = .command 0x03FF00 :: [] ∧ decode 0x03FF00 = .ok .pwmCycleStartup := by decide

theorem witness_WaitingBlockDoesNotChange : fourRunning.inbox = [] := rfl

theorem witness_ResetEventResetsAndAloneLeavesHalt :
    ({ fourDuties .halt with inbox := [.reset] } : State).inbox = .reset :: [] ∧
    (nextOf (step { fourDuties .halt with inbox := [.reset] })).map (·.phase) = some .pre ∧
    (nextOf (step { fourRunning with inbox := [.reset] })).map (·.phase) = some .pre := by decide

/-- A state of a session meets the invariant, and a command runs in it. -/
theorem witness_StepKeepsTheInvariant :
    State.Inv (fourRunning.present 0x030400) ∧ (nextOf (step (fourRunning.present 0x030400))).isSome = true := by
  refine ⟨⟨?_, ?_, ?_, ?_, ?_, ?_, ?_⟩, ?_⟩ <;> decide

theorem witness_StepKeepsTheParameters : (nextOf (step (fourRunning.present 0x100000))).isSome = true := by decide

theorem witness_LfsrStaysNonZero :
    (withRegister 0x80000000).lfsr ≠ 0 ∧ (nextOf (exec .rngPump (withRegister 0x80000000))).isSome = true ∧
    (nextOf (exec (.rngGet 5) (withRegister 0x80000000))).isSome = true ∧
    (nextOf (exec (.rngAddEntropy 0x80) (withRegister 0x80000000))).isSome = true ∧
    (params 0).rngReset = 0 ∧ (block 0).lfsr = 0 := by decide

theorem witness_HalvesShareNoState :
    (nextOf (exec (.rngGet 5) fourRunning)).isSome = true ∧ (Instr.rngGet 5).isRandom = true ∧
    (nextOf (exec (.pwmCycle 5) fourRunning)).isSome = true ∧ (Instr.pwmCycle 5).isRandom = false := by decide

theorem witness_ElementsAreWrittenByTheirInstructionsAlone :
    (nextOf (exec (.pwmGet 5) fourRunning)).isSome = true ∧ (Instr.pwmGet 5).isCycleFamily = false ∧
    (Instr.pwmGet 5).isRandom = false ∧ ∀ ch d, Instr.pwmGet 5 ≠ .pwmSet ch d := by
  exact ⟨by decide, by decide, by decide, fun _ _ => by simp⟩

theorem witness_StopsAreTheHangTheReservedWordsAndTheProtocol :
    exec (.rngGet 2) lockedAtOnes = .fault .rngGetNeverReturns ∧
    refusalOf (step ((block 1).present 0x030500)) = some .cycleOutsideRun ∧
    refusalOf (step ((block 1).present 0x030000)) = some .shutdownOutsideRun ∧
    refusalOf (step (fourRunning.present 0x03FF00)) = some .startupOutsidePre := by
  exact ⟨test_rng_get_hang, by decide⟩

theorem witness_PwmSetStoresTheDuty :
    (3#8).toNat < (block 4).params.numChannels ∧ ¬ (4#8).toNat < (block 4).params.numChannels ∧
    (255#8).toNat < (block 256).params.numChannels ∧ ¬ (0#8).toNat < (block 0).params.numChannels := by decide

theorem witness_GetReturnsTheLastSet :
    (3#8).toNat < (block 4).params.numChannels ∧ ¬ (4#8).toNat < (block 4).params.numChannels ∧
    (nextOf (runInstrs [.pwmSet 2 9, .pwmCycleStartup, .rngPump] (block 4))).isSome = true ∧
    ∀ i ∈ [Instr.pwmSet 2 9, .pwmCycleStartup, .rngPump], ∀ d', i ≠ .pwmSet 3 d' := by
  exact ⟨by decide, by decide, by decide, by simp⟩

theorem witness_ChannelAccessesAreIdempotent :
    (nextOf (exec (.pwmSet 1 0) (fourDuties .pre))).isSome = true ∧
    (nextOf (exec (.pwmGet 1) (fourDuties .pre))).isSome = true := by decide

theorem witness_PwmCycleAdvancesTheCycle :
    1 ≤ (1#8).toNat ∧ (254#8).toNat ≤ 254 ∧ fourRunning.phase = .run ∧ (block 1).phase ≠ .run := by decide

/-- Both wake clauses of the relation are met: a least ON duty, and no ON channel. -/
theorem witness_RunsTick : fourRunning.IsLeastOnDuty 4 192 ∧ (block 2).NoChannelOn 15 := by
  refine ⟨⟨⟨1, by decide, by decide⟩, by decide, ?_⟩, ?_⟩
  · unfold fourRunning fourDuties; decide
  · unfold State.NoChannelOn; decide

theorem witness_StartupBeginsTheSession :
    (fourDuties .pre).phase = .pre ∧ fourRunning.phase ≠ .pre ∧ (fourDuties .halt).phase ≠ .pre := by decide

theorem witness_ShutdownReleasesThePins :
    fourRunning.phase = .run ∧ (fourDuties .pre).phase ≠ .run ∧ (fourDuties .halt).phase ≠ .run := by decide

theorem witness_SessionProtocolTable :
    (nextOf (exec .pwmCycleStartup (block 1))).isSome = true ∧ (nextOf (exec (.pwmCycle 1) fourRunning)).isSome = true ∧
    (nextOf (exec (.pwmCycle 254) fourRunning)).isSome = true ∧ (Instr.pwmCycle 254).wellFormed = true ∧
    (nextOf (exec .pwmCycleShutdown fourRunning)).isSome = true ∧ (Instr.rngPump).isCycleFamily = false ∧
    (nextOf (exec .rngPump (fourDuties .halt))).isSome = true := by decide

theorem witness_LegalSessionsAreTheOnesThatRun :
    let legal := [Instr.pwmSet 0 1, .pwmCycleStartup, .pwmCycle 1, .rngPump, .pwmCycle 254, .pwmCycleShutdown, .pwmGet 0]
    (legal.all Instr.wellFormed) = true ∧ sessionLegal legal = true ∧
    sessionLegal [.pwmCycle 8] = false ∧ sessionLegal [.pwmCycleStartup, .pwmCycleShutdown, .pwmCycle 1] = false ∧
    sessionLegal [.pwmCycleStartup, .pwmCycle 0xFF] = false := by
  decide

theorem witness_ThresholdIsExact : 15 < (params 0).cycleLength ∧ 0 < (params 0).cycleLength := by decide

theorem witness_OnTicksOfADuty : 255 ≤ 255 ∧ 15 < (params 0).cycleLength := by decide

theorem witness_NextTickIsTheNextTransition :
    4 < fourRunning.params.cycleLength ∧ 4 ≤ 11 ∧ 11 < fourRunning.nextTick 4 ∧
    fourRunning.nextTick 4 < fourRunning.params.cycleLength ∧
    fourRunning.nextTick 12 = fourRunning.params.cycleLength := by decide

theorem witness_WakeRequestsLieInTheCycle :
    (nextOf (exec .pwmCycleStartup (block 2))).map (·.result) = some (some 0x10) ∧
    (nextOf (exec (.pwmCycle 15) fourRunning)).map (·.result) = some (some 0x01) := by decide

theorem witness_EarlyInvocationsAreHarmless :
    fourRunning.phase = .run ∧ (Instr.pwmCycle 254).wellFormed = true ∧ (Instr.pwmCycle 1).wellFormed = true ∧
    (Instr.pwmCycle 13).wellFormed = true ∧
    ((1#8).toNat + (13#8).toNat) % fourRunning.params.cycleLength = (254#8).toNat % fourRunning.params.cycleLength := by
  decide

/-- Two wakes, one whole cycle (T3: one channel at 0x80), with a `pwm_get` and a Random Generator command between. -/
theorem witness_SteadyStateDutyLaw :
    let commands := [Instr.pwmGet 0, .pwmCycle 8, .rngPump, .pwmCycle 8]
    let o := RunHistory.run (.pwmCycleStartup :: commands) (State.beginHistory { block 1 with duty := [(0, 0x80)] })
    (historyOf o).map (fun h => (h.intervals, h.asked, h.state.phase)) =
      some ([⟨[.on], some 8, 8⟩, ⟨[.off], some 8, 8⟩], some 8, .run) ∧
    (historyOf o).map (fun h => (h.window 2, h.onTime 0 2)) = some (16, 8) ∧
    ∀ i ∈ commands, ∀ ch d, i ≠ .pwmSet ch d := by
  exact ⟨by decide, by decide, by simp⟩

/-- The same cycle with an invocation earlier than asked: 3 ms where the engine asked for 8 (H6). -/
theorem witness_SteadyStateDutyLaw_early :
    let o := RunHistory.run [.pwmCycleStartup, .pwmCycle 3, .pwmCycle 5, .pwmCycle 8]
      (State.beginHistory { block 1 with duty := [(0, 0x80)] })
    (historyOf o).map (fun h => (h.intervals, h.window 3, h.onTime 0 3)) =
      some ([⟨[.on], some 8, 3⟩, ⟨[.on], some 5, 5⟩, ⟨[.off], some 8, 8⟩], 16, 8) := by decide

theorem witness_PumpIsABijectionThatFixesZero :
    (0xB5B5B5B5#32).getLsbD 0 = true ∧ (0x00400006#32).getLsbD 0 = false := by decide

theorem witness_ZeroCorrectionHappensOnEqualBytes :
    ∀ i, i < 4 → (withRegister 0x5A5A5A5A).lfsrByte i = 0x5A := by decide

/-- R140's example: rejected after one pump, accepted after two; and accepted after one. -/
theorem witness_RngGetReturnsTheFirstAcceptedCandidate :
    let cand (m : Byte) (r : Word32) (j : Nat) : Byte :=
      (pumpTimes (params 0).feedback j r).extractLsb' 24 8 &&& rejectionMask m
    100 < cand 100 0x383E29DE 1 ∧ cand 100 0x383E29DE 2 ≤ 100 ∧ cand 0 0x383E29DE 1 ≤ 0 := by decide

theorem witness_RngGetHangsOnlyWhereNothingIsAccepted (j : Nat) :
    2 < (pumpTimes lockedAtOnes.params.feedback j lockedAtOnes.lfsr).extractLsb' 24 8 &&& rejectionMask 2 := by
  rw [locked_candidates]; decide

theorem witness_RngGetStaysInRange : (nextOf (exec (.rngGet 1) (withRegister 1))).isSome = true := by decide

theorem witness_MaskIsTheSmallestAllOnes : 1 ≤ (1#8).toNat ∧ 1 ≤ (255#8).toNat ∧ (128#8).toNat ≤ 2 ^ 8 - 1 := by decide

theorem witness_AllOnesMaximaAcceptAtOnce :
    (0#8).toNat = 2 ^ 0 - 1 ∧ (1#8).toNat = 2 ^ 1 - 1 ∧ (255#8).toNat = 2 ^ 8 - 1 := by decide

/-- FB = 0x00400007. -/
theorem witness_RngGetReturnsUnderMaximalLength :
    FbMaximalLength (State.resetWith ⟨0, Config.defaultCycleLog2, 0x00200003, 0⟩).params :=
  Laws.illustrativeFb_maximalLength

theorem witness_FadeAdjustConverges : (250#8) ≤ 255#8 ∧ (0#8) ≤ 5#8 := by decide

theorem witness_FadeRoundAdjustsEveryChannel :
    [0#8, 3#8, 4#8].Nodup ∧ (3#8).toNat < (block 4).params.numChannels ∧ ∀ c ∈ [0#8, 3#8, 4#8], c.toNat ≠ 1 := by decide

/-- Each branch at a boundary: a period of 0; 254 of 255 ms accumulated; exactly the period reached. -/
theorem witness_FadeTaskSnapsWaitsOrAdjusts :
    [0#8, 3#8, 4#8].Nodup ∧ (Instr.pwmCycle 254).wellFormed = true ∧
    (⟨255, 10, 0, 0⟩ : FadeState).period = 0 ∧ (⟨255, 10, 255, 0⟩ : FadeState).period ≠ 0 ∧
    0 + (254#8).toNat < (255#8).toNat ∧ (254#8).toNat ≤ 0 + (254#8).toNat ∧
    (⟨255, 10, 254, 0⟩ : FadeState).adjust 0 ≠ 0 ∧ (⟨0, 10, 254, 0⟩ : FadeState).adjust 0 = 0 := by decide

theorem witness_TwinkleSettersRecomputeEveryChannel :
    ([((0 : Byte), (49 : Byte)), (1, 75)].map Prod.fst).Nodup ∧ (⟨0, 0⟩ : TwinkleState).position ≠ 255 ∧
    (⟨0, 0⟩ : TwinkleState).brightness ≠ 100 ∧ (1#8).toNat < (block 2).params.numChannels := by decide

/-- The Fade task issues no command of the family, so it may stand beside the engine; the session sleeps after one
epoch, and another one ends. -/
theorem witness_SchedulerSessionDrivesTheEngine :
    twoTasks.tasks = [.fade] ++ .engine :: [] ∧
    (∀ task ∈ [RegisteredTask.effect fun _ (h : HostState Byte) => .done (Config.shutdown, h)],
      ∀ e h, (twoTasks.invoke e h task).IssuesOnly fun i => !i.isCycleFamily) ∧
    (∀ e h, (twoTasks.invoke e h .fade).IssuesOnly fun i => !i.isCycleFamily) ∧
    (block 1).phase = .pre ∧
    ((answerOf ((twoTasks.session [] idleHost).run (block 1))).map fun x => x.2.phase) = some .run := by
  refine ⟨rfl, by simp [HostProgram.invoke], fun e h => ?_, rfl, by decide⟩
  refine Client.issuesOnly_map (Client.issuesOnly_mono ?_ (h.fade.cycle_issuesOnly _ _ e)) _
  intro i hi
  cases i <;> first | rfl | cases hi

/-- An effect task that sets a duty issues no Random Generator command; a session with it runs. -/
theorem witness_OnlyEffectProgramsDriveTheRandomGenerator :
    let effect (_ : Byte) (h : HostState Byte) : Client (Byte × HostState Byte) :=
      .issue (.pwmSet 0 1) fun _ => .done (Config.idle, h)
    (∀ e h, (effect e h).IssuesOnly fun i => !i.isRandom) ∧
    ((answerOf (({ twoTasks with tasks := [.effect effect, .fade, .engine] }.session [] idleHost).run (block 1))).map
      fun x => x.2.lfsr) = some 0 := by
  exact ⟨fun _ _ => ⟨rfl, fun _ => trivial⟩, by decide⟩

theorem witness_TwinkleDutyFormula :
    (127#8).toNat ≤ 127 ∧ (127#8) ≤ 127#8 ∧ (49#8) < 100#8 ∧ (49#8).toNat * 2 < (100#8).toNat ∧
    (50#8) < 100#8 ∧ (100#8).toNat ≤ (50#8).toNat * 2 := by decide

theorem witness_AggregatedWakeIsTheMinimum : Config.shutdown ∈ [0xFF, 0x00, 0x10] := by decide

end Sys2Proof.Tests
end

namespace Sys2Proof.Machine

/-! ### One step, input by input (R11) -/

theorem State.takeInput_of_inbox_cons {s : State} {x : HostInput} {rest : List HostInput}
    (hin : s.inbox = x :: rest) : s.takeInput = some (x, { s with inbox := rest }) := by
  rw [State.takeInput, hin]

theorem step_of_decode_ok {s : State} {w : Command} {i : Instr} {rest : List HostInput}
    (hin : s.inbox = .command w :: rest) (hdec : decode w = .ok i) :
    step s = exec i { s with inbox := rest } := by
  simp only [step, State.takeInput_of_inbox_cons hin, hdec]

/-- Settles O6: the input is taken first, and the decoder's answer then selects the arm of the step that runs `exec`. -/
theorem stepRunsTheDecodedInstruction : Obligations.StepRunsTheDecodedInstruction := by
  intro s w i rest hin hdec
  exact step_of_decode_ok hin hdec

end Sys2Proof.Machine

namespace Sys2Proof.Machine

/-! ### What each PWM Engine instruction does, said once (40_pwm.md) -/

theorem exec_pwmSet_next {ch d : Byte} {s t : State} :
    exec (.pwmSet ch d) s = .next t ↔ t = (s.channelWrite (channelIndex ch) d).answer noResult := by
  simp only [exec, execPwmSet, Host.Outcome.next.injEq, eq_comm]

theorem exec_pwmGet_next {ch : Byte} {s t : State} :
    exec (.pwmGet ch) s = .next t ↔ t = s.answer (s.channelRead (channelIndex ch)) := by
  simp only [exec, execPwmGet, Host.Outcome.next.injEq, eq_comm]

/-- STARTUP completes in phase PRE alone (R108, R112). -/
theorem exec_pwmCycleStartup_next {s t : State} :
    exec .pwmCycleStartup s = .next t ↔ s.phase = .pre ∧ t = s.runTick 0 := by
  simp only [exec, execPwmCycleStartup]
  cases s.phase <;> simp [eq_comm]

/-- SHUTDOWN completes in phase RUN alone (R110, R112). -/
theorem exec_pwmCycleShutdown_next {s t : State} :
    exec .pwmCycleShutdown s = .next t ↔ s.phase = .run ∧ t = s.releasePins.answer Config.shutdown := by
  simp only [exec, execPwmCycleShutdown]
  cases s.phase <;> simp [eq_comm]

/-- A real elapsed time completes in phase RUN alone (R104, R112). -/
theorem exec_pwmCycle_next {elapsed : Byte} {s t : State} :
    exec (.pwmCycle elapsed) s = .next t ↔ s.phase = .run ∧ t = s.runTick (s.tickAfter elapsed) := by
  simp only [exec, execPwmCycle]
  cases s.phase <;> simp [eq_comm]

/-! ### What each Random Generator instruction does, said once (41_random.md) -/

theorem exec_rngPump (s : State) :
    exec .rngPump s = .next ((s.setLfsr (pump s.params.feedback s.lfsr)).answer noResult) := rfl

theorem exec_rngAddEntropy (entropy : Byte) (s : State) :
    exec (.rngAddEntropy entropy) s = .next ((s.setLfsr (pumpTimes s.params.feedback 8
      (zeroCorrection (s.lfsr ^^^ entropyWord entropy)))).answer noResult) := rfl

theorem exec_rngGet (maximum : Byte) (s : State) : exec (.rngGet maximum) s = execRngGet maximum s := rfl

/-- A Random Generator instruction that completes writes the register and the result alone, and what it writes there is
settled by the parameters and the register: any state that agrees in these two gets the same (R34, R148). -/
theorem exec_random_next {i : Instr} {s t : State} (hi : i.isRandom = true) (h : exec i s = .next t) :
    ∃ r v, ∀ s' : State, s'.params = s.params → s'.lfsr = s.lfsr →
      exec i s' = .next ((s'.setLfsr r).answer v) := by
  cases i with
  | rngPump => exact ⟨_, _, fun s' hp hr => by rw [exec_rngPump, hp, hr]⟩
  | rngAddEntropy entropy => exact ⟨_, _, fun s' hp hr => by rw [exec_rngAddEntropy, hp, hr]⟩
  | rngGet maximum =>
    rw [exec_rngGet, execRngGet] at h
    simp only [exec_rngGet, execRngGet]
    by_cases hm : maximum = 0
    · exact ⟨_, _, fun s' hp hr => by rw [if_pos hm, hp, hr]⟩
    · rw [if_neg hm] at h
      cases hd : drawUntilAccepted s.params.feedback maximum registerValues s.lfsr with
      | some r => exact ⟨r, candidate maximum r, fun s' hp hr => by simp only [if_neg hm, hp, hr, hd]⟩
      | none => simp [hd] at h
  | _ => cases hi

/-- `rng_get` leaves the register as some number of pumps makes it (R140). -/
theorem exec_rngGet_lfsr {maximum : Byte} {s t : State} (h : exec (.rngGet maximum) s = .next t) :
    ∃ n, t.lfsr = pumpTimes s.params.feedback n s.lfsr := by
  rw [exec_rngGet] at h
  obtain ⟨n, _, _, _, _, hn⟩ | ⟨_, _, hf⟩ := execRngGet_cases maximum s
  · obtain rfl := Host.Outcome.next.inj (hn.symm.trans h)
    exact ⟨n, by simp⟩
  · cases hf.symm.trans h

/-! ### All that an instruction can do -/

/-- All that can lead from an instruction to a next state (R100 to R112, R148). -/
theorem exec_next_cases {i : Instr} {s t : State} (h : exec i s = .next t) :
    (∃ ch d, i = .pwmSet ch d ∧ t = (s.channelWrite (channelIndex ch) d).answer noResult) ∨
    (∃ ch, i = .pwmGet ch ∧ t = s.answer (s.channelRead (channelIndex ch))) ∨
    (i = .pwmCycleStartup ∧ s.phase = .pre ∧ t = s.runTick 0) ∨
    (i = .pwmCycleShutdown ∧ s.phase = .run ∧ t = s.releasePins.answer Config.shutdown) ∨
    (∃ e, i = .pwmCycle e ∧ s.phase = .run ∧ t = s.runTick (s.tickAfter e)) ∨
    (i.isRandom = true ∧ ∃ r v, t = (s.setLfsr r).answer v) := by
  by_cases hr : i.isRandom = true
  · obtain ⟨r, v, hs⟩ := exec_random_next hr h
    have ht : t = (s.setLfsr r).answer v := Host.Outcome.next.inj (h.symm.trans (hs s rfl rfl))
    exact .inr (.inr (.inr (.inr (.inr ⟨hr, r, v, ht⟩))))
  · cases i with
    | pwmSet ch d => simpa [Instr.isRandom] using exec_pwmSet_next.mp h
    | pwmGet ch => simpa [Instr.isRandom] using exec_pwmGet_next.mp h
    | pwmCycleStartup => simpa [Instr.isRandom] using exec_pwmCycleStartup_next.mp h
    | pwmCycleShutdown => simpa [Instr.isRandom] using exec_pwmCycleShutdown_next.mp h
    | pwmCycle e => simpa [Instr.isRandom] using exec_pwmCycle_next.mp h
    | _ => exact absurd rfl hr

/-! ### Reset (R38, R230) -/

/-- A channel nobody has set reads 0x00 after reset, backed or not (R38, R51). -/
theorem resetWith_channelRead (p : Params) (c : Nat) : (State.resetWith p).channelRead c = 0x00 := by
  by_cases hc : c < p.numChannels
  · simp [State.channelRead, hc, Config.dutyReset]
  · exact channelRead_unbacked hc

/-- Settles O9. The other elements are the fields of `State.resetWith`. -/
theorem resetValues : Obligations.ResetValues :=
  ⟨fun p => ⟨resetWith_channelRead p, rfl, rfl, rfl, rfl⟩, rfl⟩

/-! ### Who writes which element (R22 to R34) -/

/-- Settles O15: the elements each way to a next state writes, read off one by one. -/
theorem elementsAreWrittenByTheirInstructionsAlone : Obligations.ElementsAreWrittenByTheirInstructionsAlone := by
  intro i s t h
  obtain ⟨ch, d, rfl, rfl⟩ | ⟨ch, rfl, rfl⟩ | ⟨rfl, _, rfl⟩ | ⟨rfl, _, rfl⟩ | ⟨e, rfl, _, rfl⟩ | ⟨hr, r, v, rfl⟩ :=
    exec_next_cases h
  · exact ⟨fun hne => absurd rfl (hne ch d), by simp⟩
  · simp
  · simp [Instr.isCycleFamily]
  · simp [Instr.isCycleFamily]
  · simp [Instr.isCycleFamily]
  · simp [hr]

/-- No instruction but the Random Generator's changes the LFSR register (R33, R34). -/
theorem exec_keeps_lfsr {i : Instr} (hi : i.isRandom = false) {s t : State} (h : exec i s = .next t) :
    t.lfsr = s.lfsr := by
  obtain ⟨_, _, hlfsr, _⟩ := elementsAreWrittenByTheirInstructionsAlone i s t h
  exact hlfsr hi

/-- A PWM instruction does the same whatever the LFSR register holds, and keeps it (R34). -/
theorem exec_setLfsr_of_not_random {i : Instr} (hi : i.isRandom = false) {s t : State} (h : exec i s = .next t)
    (r : Word32) : exec i (s.setLfsr r) = .next (t.setLfsr r) := by
  obtain ⟨ch, d, rfl, rfl⟩ | ⟨ch, rfl, rfl⟩ | ⟨rfl, hp, rfl⟩ | ⟨rfl, hp, rfl⟩ | ⟨e, rfl, hp, rfl⟩ | ⟨hr, _⟩ :=
    exec_next_cases h
  · exact exec_pwmSet_next.mpr rfl
  · exact exec_pwmGet_next.mpr rfl
  · exact exec_pwmCycleStartup_next.mpr ⟨hp, rfl⟩
  · exact exec_pwmCycleShutdown_next.mpr ⟨hp, rfl⟩
  · exact exec_pwmCycle_next.mpr ⟨hp, rfl⟩
  · simp [hi] at hr

/-- Settles O14: each half's instructions read and write their own half, the parameters and the result alone. -/
theorem halvesShareNoState : Obligations.HalvesShareNoState := by
  intro i s t h
  refine ⟨fun hi d k ps ph => ?_, fun hi r => exec_setLfsr_of_not_random hi h r⟩
  obtain ⟨r, v, hs⟩ := exec_random_next hi h
  obtain rfl : t = (s.setLfsr r).answer v := Host.Outcome.next.inj (h.symm.trans (hs s rfl rfl))
  exact hs { s with duty := d, tick := k, pin := ps, phase := ph } rfl rfl

/-! ### The all-zero register (R32, R134) -/

theorem pumpTimes_zero (fb : Word32) (n : Nat) : pumpTimes fb n 0 = 0 := (Laws.pumpTimes_linear fb n).zero

theorem zeroCorrection_ne_zero (r : Word32) : zeroCorrection r ≠ 0 := by
  unfold zeroCorrection
  split
  · decide
  · assumption

/-- The all-zero register gives the candidate 0, which every maximum accepts (R134, R140). -/
theorem accepts_candidate_of_zero (maximum : Byte) : accepts (candidate maximum 0) maximum = true := by
  have h0 : candidate maximum 0 = 0#8 := BitVec.zero_and
  rw [h0, accepts, decide_eq_true_iff]
  exact Nat.zero_le _

/-- `rng_add_entropy` leaves a non-zero register, whatever it held (R32, R137). -/
theorem exec_rngAddEntropy_lfsr_ne_zero {entropy : Byte} {s t : State} (h : exec (.rngAddEntropy entropy) s = .next t) :
    t.lfsr ≠ 0 := by
  rw [exec_rngAddEntropy] at h
  obtain rfl := Host.Outcome.next.inj h
  exact Laws.pumpTimes_ne_zero (feedback_bit_zero s.params) (zeroCorrection_ne_zero _) 8

/-- No Random Generator instruction makes a non-zero register zero, since `FB[0] = 1` (R32). -/
theorem exec_random_lfsr_ne_zero {i : Instr} (hi : i.isRandom = true) {s t : State} (hs : s.lfsr ≠ 0)
    (h : exec i s = .next t) : t.lfsr ≠ 0 := by
  have hfb := feedback_bit_zero s.params
  cases i with
  | rngPump =>
    obtain rfl := Host.Outcome.next.inj h
    exact Laws.pump_ne_zero hfb hs
  | rngAddEntropy entropy => exact exec_rngAddEntropy_lfsr_ne_zero h
  | rngGet maximum =>
    obtain ⟨n, hn⟩ := exec_rngGet_lfsr h
    exact hn ▸ Laws.pumpTimes_ne_zero hfb hs n
  | _ => cases hi

/-- From zero `rng_pump` completes and leaves zero (R134). -/
theorem exec_rngPump_of_zero {s : State} (hs : s.lfsr = 0) : ∃ t, exec .rngPump s = .next t ∧ t.lfsr = 0 := by
  refine ⟨_, exec_rngPump s, ?_⟩
  rw [State.answer_lfsr, State.setLfsr_lfsr, hs]
  exact pumpTimes_zero s.params.feedback 1

/-- From zero `rng_get` completes, at the first candidate, and leaves zero (R134, R144 (a)). -/
theorem exec_rngGet_of_zero {s : State} (hs : s.lfsr = 0) (maximum : Byte) :
    ∃ t, exec (.rngGet maximum) s = .next t ∧ t.lfsr = 0 := by
  rw [exec_rngGet]
  obtain ⟨n, _, _, _, _, hn⟩ | ⟨_, hrejected, _⟩ := execRngGet_cases maximum s
  · exact ⟨_, hn, by rw [State.answer_lfsr, State.setLfsr_lfsr, hs, pumpTimes_zero]⟩
  · have hfirst := hrejected 1 le_rfl Nat.one_le_two_pow
    rw [hs, pumpTimes_zero, accepts_candidate_of_zero] at hfirst
    cases hfirst

/-- Settles O13: non-zero is kept since `FB[0] = 1`, the zero correction makes any register non-zero, and zero is a
fixed point of the pump. -/
theorem lfsrStaysNonZero : Obligations.LfsrStaysNonZero := by
  refine ⟨fun s t hs h => ?_, fun s e => ⟨_, exec_rngAddEntropy e s, ?_⟩, fun p hp => hp,
    fun s hs => ⟨exec_rngPump_of_zero hs, exec_rngGet_of_zero hs⟩⟩
  · obtain h | ⟨m, h⟩ | ⟨e, h⟩ := h
    all_goals exact exec_random_lfsr_ne_zero rfl hs h
  · exact exec_rngAddEntropy_lfsr_ne_zero (exec_rngAddEntropy e s)

/-! ### What the host's procedures may issue and what they keep (R34, R160 to R183) -/

section Clients

variable {A E : Type} {allowed : Instr → Bool}

/-- What every command a procedure may issue keeps, the procedure keeps. -/
theorem Client.run_keeps {B : Type} {part : State → B}
    (hkeeps : ∀ i s t, allowed i = true → exec i s = .next t → part t = part s) {p : Client A}
    (hp : p.IssuesOnly allowed) {s t : State} {a : A} (h : p.run s = .next (a, t)) : part t = part s := by
  induction p generalizing s with
  | done b => cases h; rfl
  | issue i next ih =>
    obtain ⟨hi, hnext⟩ := hp
    cases hx : exec i s with
    | next u =>
      rw [Client.run_issue_next hx] at h
      calc part t = part u := ih _ (hnext _) h
        _ = part s := hkeeps i s u hi hx
    | fault f => simp [Client.run, hx] at h
    | refused r => simp [Client.run, hx] at h

theorem HostProgram.invokeAll_issuesOnly {p : HostProgram E} {tasks : List (RegisteredTask E)} {elapsed : Byte}
    (htasks : ∀ task ∈ tasks, ∀ h, (p.invoke elapsed h task).IssuesOnly allowed) (h : HostState E) :
    (p.invokeAll elapsed tasks h).IssuesOnly allowed := by
  induction tasks generalizing h with
  | nil => trivial
  | cons task rest ih =>
    obtain ⟨htask, hrest⟩ := List.forall_mem_cons.mp htasks
    exact Client.issuesOnly_bind (htask h) fun x => Client.issuesOnly_map (ih hrest x.2) _

section Session

variable {p : HostProgram E} (htasks : ∀ task ∈ p.tasks, ∀ e h, (p.invoke e h task).IssuesOnly allowed)
include htasks

theorem HostProgram.epoch_issuesOnly (elapsed : Byte) (h : HostState E) : (p.epoch elapsed h).IssuesOnly allowed :=
  Client.issuesOnly_map (HostProgram.invokeAll_issuesOnly (fun task ht => htasks task ht elapsed) h) _

theorem HostProgram.loop_issuesOnly (elapsed : List RealElapsed) (wake : Byte) (h : HostState E) :
    (p.loop elapsed wake h).IssuesOnly allowed := by
  have hlast (h : HostState E) :
      ((p.epoch Config.shutdown h).map fun x => SessionPoint.ended x.2).IssuesOnly allowed :=
    Client.issuesOnly_map (HostProgram.epoch_issuesOnly htasks _ h) _
  induction elapsed generalizing wake h with
  | nil =>
    unfold HostProgram.loop
    split
    · exact hlast h
    · trivial
  | cons e rest ih =>
    unfold HostProgram.loop
    split
    · exact hlast h
    · exact Client.issuesOnly_bind (HostProgram.epoch_issuesOnly htasks _ h) fun x => ih x.1 x.2

/-- The Scheduler adds no command of its own: a session issues what its tasks issue (R160 to R162). -/
theorem HostProgram.session_issuesOnly (elapsed : List RealElapsed) (h : HostState E) :
    (p.session elapsed h).IssuesOnly allowed :=
  Client.issuesOnly_bind (HostProgram.epoch_issuesOnly htasks _ h) fun x =>
    HostProgram.loop_issuesOnly htasks elapsed x.1 x.2

end Session

theorem not_isRandom_of_isChannelAccess (i : Instr) (hi : isChannelAccess i = true) : (!i.isRandom) = true := by
  cases i with
  | pwmSet | pwmGet => rfl
  | _ => cases hi

/-- The PWM Engine is invoked by the `pwm_cycle` family alone, for every elapsed operand (R160). -/
theorem cycleCommand_isRandom (elapsed : Byte) : (cycleCommand elapsed).isRandom = false := by
  unfold cycleCommand
  split
  · rfl
  · split
    · rfl
    · rfl

/-- Every task of the core, and an effect task that may issue no Random Generator command, issues none (R34). -/
theorem HostProgram.invoke_issuesOnly_not_random {p : HostProgram E} {task : RegisteredTask E}
    (heffect : ∀ cycle, task = .effect cycle → ∀ e h, (cycle e h).IssuesOnly fun i => !i.isRandom)
    (elapsed : Byte) (h : HostState E) : (p.invoke elapsed h task).IssuesOnly fun i => !i.isRandom := by
  cases task with
  | engine => exact ⟨by simp [cycleCommand_isRandom], fun _ => trivial⟩
  | fade =>
    exact Client.issuesOnly_map
      (Client.issuesOnly_mono not_isRandom_of_isChannelAccess (h.fade.cycle_issuesOnly _ _ elapsed)) _
  | effect cycle => exact heffect cycle rfl elapsed h

/-- A Twinkle setter writes duties, and issues nothing else (R183). -/
theorem TwinkleState.change_issuesOnly (t t' : TwinkleState) (ring : Ring) :
    (t.change t' ring).IssuesOnly isChannelAccess := by
  unfold TwinkleState.change
  split
  · trivial
  · refine Client.issuesOnly_map (Client.issuesOnly_issueAll.mpr fun i hi => ?_) _
    obtain ⟨c, _, rfl⟩ := List.mem_map.mp hi
    rfl

end Clients

/-- Settles O52: the bound on what a session may issue bounds its trace, and a run of such commands keeps the LFSR
register. -/
theorem onlyEffectProgramsDriveTheRandomGenerator : Obligations.OnlyEffectProgramsDriveTheRandomGenerator := by
  intro E p h
  refine ⟨fun elapsed s heffects => ?_, fun v => ?_⟩
  · have hsession : (p.session elapsed h).IssuesOnly fun i => !i.isRandom :=
      HostProgram.session_issuesOnly (fun task ht => HostProgram.invoke_issuesOnly_not_random
        fun cycle hc => heffects cycle (hc ▸ ht)) elapsed h
    exact ⟨fun i hi => by simpa using Client.issuesOnly_trace hsession s i hi, fun point t ht =>
      Client.run_keeps (part := State.lfsr) (fun i s t hi => exec_keeps_lfsr (by simpa using hi)) hsession ht⟩
  · have hchange (t' : TwinkleState) (g : TwinkleState → HostState E) :
        ((h.twinkle.change t' p.ring).map g).IssuesOnly fun i => !i.isRandom :=
      Client.issuesOnly_map (Client.issuesOnly_mono not_isRandom_of_isChannelAccess
        (h.twinkle.change_issuesOnly t' p.ring)) g
    exact ⟨hchange _ _, hchange _ _⟩

end Sys2Proof.Machine

namespace Sys2Proof.Machine

/-! ### Repeating an access to the channel space (R56) -/

theorem Memory.erase_insert (m : Memory) (c : Nat) (v : Byte) :
    Memory.erase (Memory.insert m c v) c = Memory.erase m c := by
  induction m with
  | nil => simp [Memory.insert, Memory.erase]
  | cons e m ih =>
    simp only [Memory.erase] at ih
    simp only [Memory.insert, Memory.erase]
    split
    · simp
    · simp only [List.filter_cons, ih]

theorem Memory.erase_write (m : Memory) (c : Nat) (v : Byte) :
    Memory.erase (Memory.write m c v) c = Memory.erase m c := by
  have herase : Memory.erase (Memory.erase m c) c = Memory.erase m c := by simp [Memory.erase]
  unfold Memory.write
  split
  · exact herase
  · rw [Memory.erase_insert, herase]

/-- The last write to an index decides the contents, as data, for they are settled by the byte written and the entries
at the other indices; the memory need not be in canonical form. -/
theorem Memory.write_write (m : Memory) (c : Nat) (v w : Byte) :
    Memory.write (Memory.write m c v) c w = Memory.write m c w := by
  conv_lhs => rw [Memory.write, Memory.erase_write]
  rfl

theorem channelWrite_channelWrite (s : State) (c : Nat) (v w : Byte) :
    (s.channelWrite c v).channelWrite c w = s.channelWrite c w := by
  by_cases hc : c < s.params.numChannels
  · simp [State.channelWrite, hc, Memory.write_write]
  · rw [channelWrite_unbacked hc v]

theorem channelWrite_answer (s : State) (c : Nat) (v r : Byte) :
    (s.answer r).channelWrite c v = (s.channelWrite c v).answer r := rfl

@[simp] theorem channelRead_answer (s : State) (c : Nat) (r : Byte) :
    (s.answer r).channelRead c = s.channelRead c := rfl

@[simp] theorem State.answer_answer (s : State) (r r' : Byte) : (s.answer r).answer r' = s.answer r' := rfl

/-- Settles O20: the second access meets the duty memory the first left, which it keeps, and replaces the result by
itself. -/
theorem channelAccessesAreIdempotent : Obligations.ChannelAccessesAreIdempotent := by
  refine ⟨fun ch d s t h => ?_, fun ch s t h => ?_⟩
  · obtain rfl := exec_pwmSet_next.mp h
    rw [exec_pwmSet_next, channelWrite_answer, channelWrite_channelWrite, State.answer_answer]
  · obtain rfl := exec_pwmGet_next.mp h
    rw [exec_pwmGet_next, channelRead_answer, State.answer_answer]

end Sys2Proof.Machine

namespace Sys2Proof

/-! ### Decoder and encoder are inverse (R79) -/

/-- A real elapsed time is neither sentinel (R74). -/
theorem wellFormed_pwmCycle_iff {e : Byte} : (Instr.pwmCycle e).wellFormed = true ↔ e ≠ 0#8 ∧ e ≠ 255#8 := by
  simp [Instr.wellFormed, Config.shutdown, Config.startup]

/-- The decoder gives back a well-formed instruction: its word meets its own row of R77 and no earlier one. The bounds on
a real elapsed time keep it from the rows of the two sentinels. -/
theorem decode_encode {i : Instr} (h : i.wellFormed = true) : decode (encode i) = .ok i := by
  cases i with
  | pwmCycle e =>
    obtain ⟨hshutdown, hstartup⟩ := wellFormed_pwmCycle_iff.mp h
    simp [encode, decode_commandWord, hshutdown, hstartup]
  | pwmCycleStartup => rfl
  | pwmCycleShutdown => rfl
  | rngPump => rfl
  | _ => simp [encode, decode_commandWord]

/-- What the decoder answers is well-formed, and the word is its encoding: every byte of the word is an operand, or
fixed by the row that selects it. -/
theorem encode_of_decode_ok {w : Command} {i : Instr} (h : decode w = .ok i) :
    i.wellFormed = true ∧ encode i = w := by
  obtain ⟨op, a, b, rfl⟩ : ∃ op a b, w = commandWord op a b := ⟨_, _, _, (commandWord_fields w).symm⟩
  rw [decode_commandWord] at h
  split_ifs at h with hset hget hstartup hshutdown hcycle hpump hentropy hdraw
  · obtain rfl := hset; cases h; exact ⟨rfl, rfl⟩
  · obtain ⟨rfl, rfl⟩ := hget; cases h; exact ⟨rfl, rfl⟩
  · obtain ⟨rfl, rfl, rfl⟩ := hstartup; cases h; exact ⟨rfl, rfl⟩
  · obtain ⟨rfl, rfl, rfl⟩ := hshutdown; cases h; exact ⟨rfl, rfl⟩
  · obtain ⟨⟨rfl, rfl⟩, hne⟩ := hcycle; cases h; exact ⟨wellFormed_pwmCycle_iff.mpr hne, rfl⟩
  · obtain ⟨rfl, rfl, rfl⟩ := hpump; cases h; exact ⟨rfl, rfl⟩
  · obtain ⟨rfl, rfl⟩ := hentropy; cases h; exact ⟨rfl, rfl⟩
  · obtain ⟨rfl, rfl⟩ := hdraw; cases h; exact ⟨rfl, rfl⟩

theorem decode_eq_ok_iff {w : Command} {i : Instr} :
    decode w = .ok i ↔ i.wellFormed = true ∧ encode i = w :=
  ⟨encode_of_decode_ok, fun ⟨hi, hw⟩ => hw ▸ decode_encode hi⟩

/-- Settles O1. -/
theorem decodeOfEncodeIsTheInstruction : Obligations.DecodeOfEncodeIsTheInstruction :=
  fun _ => decode_encode

/-! ### Reserved words (R78, R79) -/

/-- A word decodes to an instruction, or its opcode alone says why it is reserved. -/
theorem decode_ok_or_error (w : Command) :
    (∃ i, decode w = .ok i) ∨
    decode w = .error (if opField w ∈ definedOpcodes then .operandField else .opcode) := by
  simp only [← List.contains_iff_mem]
  unfold decode
  split
  · exact .inl ⟨_, rfl⟩
  · exact .inr rfl

theorem opField_encode_mem (i : Instr) : opField (encode i) ∈ definedOpcodes := by
  cases i <;> simp [encode, definedOpcodes]

/-- The must-be-zero fields of R73, in every instruction's word. -/
theorem encode_mustBeZero (i : Instr) :
    (opField (encode i) ∈ [0x02, 0x03, 0x11, 0x12] → bField (encode i) = 0x00) ∧
    (opField (encode i) = 0x10 → aField (encode i) = 0x00 ∧ bField (encode i) = 0x00) := by
  cases i <;> simp [encode]

/-- R78: a word is rejected for its opcode exactly when the opcode is reserved. -/
theorem decode_eq_error_opcode_iff {w : Command} : decode w = .error .opcode ↔ opField w ∉ definedOpcodes := by
  obtain ⟨i, hi⟩ | herr := decode_ok_or_error w
  · obtain ⟨-, rfl⟩ := encode_of_decode_ok hi
    simp [hi, opField_encode_mem]
  · by_cases hop : opField w ∈ definedOpcodes
    · simp [herr, hop]
    · simp [herr, hop]

/-- R79: a defined opcode with a non-zero must-be-zero field, for no instruction has such a word. -/
theorem decode_eq_error_operandField {w : Command}
    (h : (opField w ∈ [0x02, 0x03, 0x11, 0x12] ∧ bField w ≠ 0x00) ∨
      (opField w = 0x10 ∧ (aField w ≠ 0x00 ∨ bField w ≠ 0x00))) :
    decode w = .error .operandField := by
  obtain ⟨i, hi⟩ | herr := decode_ok_or_error w
  · obtain ⟨-, rfl⟩ := encode_of_decode_ok hi
    obtain ⟨hone, hnone⟩ := encode_mustBeZero i
    obtain ⟨hop, hb⟩ | ⟨hop, ha | hb⟩ := h
    · exact absurd (hone hop) hb
    · exact absurd (hnone hop).left ha
    · exact absurd (hnone hop).right hb
  · have hdefined : opField w ∈ definedOpcodes := by
      obtain ⟨hop, -⟩ | ⟨hop, -⟩ := h
      · simp only [definedOpcodes, List.mem_cons] at hop ⊢
        tauto
      · simp [definedOpcodes, hop]
    rw [herr, if_pos hdefined]

end Sys2Proof

namespace Sys2Proof.Machine

/-- A reserved word has no step, in any state (R78, R79). -/
theorem step_of_decode_error {s : State} {w : Command} {reason : Reserved} {rest : List HostInput}
    (hin : s.inbox = .command w :: rest) (hdec : decode w = .error reason) :
    step s = .refused (reservedRefusal reason) := by
  simp only [step, State.takeInput_of_inbox_cons hin, hdec]

/-- Settles O2: the words the decoder answers are the encodings, and no encoding breaks a must-be-zero field. -/
theorem reservedOperandFieldsHaveNoStep : Obligations.ReservedOperandFieldsHaveNoStep := by
  refine ⟨fun w s rest hin hfields => ?_, fun i hi => ⟨encode i, decode_encode hi, fun w' hw' => ?_⟩, fun w hw => ?_⟩
  · have hdec := decode_eq_error_operandField hfields
    exact ⟨hdec, step_of_decode_error hin hdec⟩
  · exact (encode_of_decode_ok hw').right.symm
  · obtain ⟨i, hi⟩ | herr := decode_ok_or_error w
    · obtain ⟨hwf, henc⟩ := encode_of_decode_ok hi
      exact ⟨i, hwf, hi, henc⟩
    · exact absurd herr (hw _)

/-- Settles O3. -/
theorem reservedOpcodesHaveNoStep : Obligations.ReservedOpcodesHaveNoStep :=
  ⟨fun _ => decode_eq_error_opcode_iff,
    fun _ _ _ hin hop => step_of_decode_error hin (decode_eq_error_opcode_iff.mpr hop)⟩

end Sys2Proof.Machine

namespace Sys2Proof

/-! ### The rows of the opcode table (R72, R77) -/

theorem eq_of_and_whole_mask {w v : Command} (h : w &&& 0xFFFFFF = v) : w = v :=
  BitVec.and_allOnes.symm.trans h

theorem eq_commandWord_of_and_opcode_mask {w : Command} {op : Byte} (h : w &&& 0xFF0000 = commandWord op 0 0) :
    w = commandWord op (aField w) (bField w) := by
  rw [← commandWord_fields w, Laws.and_mask_opcode] at h
  obtain ⟨hop, -, -⟩ := commandWord_inj h
  rw [← hop, commandWord_fields]

theorem eq_commandWord_of_and_one_operand_mask {w : Command} {op : Byte}
    (h : w &&& 0xFF00FF = commandWord op 0 0) : w = commandWord op (aField w) 0 := by
  rw [← commandWord_fields w, Laws.and_mask_one_operand] at h
  obtain ⟨hop, -, hb⟩ := commandWord_inj h
  rw [← hop, ← hb, commandWord_fields]

/-- What a row's selection says of a word: the row builds a well-formed instruction of its own mnemonic, and the word is
that instruction's encoding. -/
def Row.SelectsEncodings (r : Row) : Prop :=
  ∀ w, r.selects w = true →
    (r.build (aField w) (bField w)).wellFormed = true ∧ encode (r.build (aField w) (bField w)) = w ∧
    Laws.rowMnemonic (r.build (aField w) (bField w)) = r.mnemonic

theorem Row.selects_iff {r : Row} {w : Command} :
    r.selects w = true ↔ w &&& r.maskBits = r.matchBits ∧ r.side (aField w) = true := by
  rw [Row.selects, Bool.and_eq_true, beq_iff_eq]

/-- The side condition of the general `pwm_cycle` row leaves out the two sentinels (R74, R77 row 5). -/
theorem wellFormed_pwmCycle_of_bounds {a : Byte} (h : 0x01 ≤ a ∧ a ≤ 0xFE) : (Instr.pwmCycle a).wellFormed = true := by
  revert a
  decide

theorem selectsEncodings_of_mem {r : Row} (hr : r ∈ opcodeRows) : r.SelectsEncodings := by
  revert r
  simp only [opcodeRows, List.forall_mem_cons]
  refine ⟨?pwmSet, ?pwmGet, ?startup, ?shutdown, ?pwmCycle, ?rngPump, ?rngAddEntropy, ?rngGet, by simp⟩
  all_goals
    intro w hw
    obtain ⟨hmatch, hside⟩ := Row.selects_iff.mp hw
  case pwmSet => exact ⟨rfl, (eq_commandWord_of_and_opcode_mask hmatch).symm, rfl⟩
  case startup | shutdown | rngPump => exact ⟨rfl, (eq_of_and_whole_mask hmatch).symm, rfl⟩
  case pwmCycle =>
    exact ⟨wellFormed_pwmCycle_of_bounds (of_decide_eq_true hside),
      (eq_commandWord_of_and_one_operand_mask hmatch).symm, rfl⟩
  all_goals exact ⟨rfl, (eq_commandWord_of_and_one_operand_mask hmatch).symm, rfl⟩

/-- A row that selects a word decides what it decodes to, wherever the row stands in the table (R72). -/
theorem decode_of_selects {r : Row} {w : Command} (hr : r ∈ opcodeRows) (hw : r.selects w = true) :
    decode w = .ok (r.build (aField w) (bField w)) := by
  obtain ⟨hwf, henc, -⟩ := selectsEncodings_of_mem hr w hw
  exact decode_eq_ok_iff.mpr ⟨hwf, henc⟩

theorem decode_error_of_no_row {w : Command} (h : ∀ r ∈ opcodeRows, r.selects w = false) :
    ∃ reason, decode w = .error reason := by
  have hnone : opcodeRows.find? (fun r => r.selects w) = none :=
    List.find?_eq_none.mpr fun r hr => by simp [h r hr]
  exact ⟨_, by rw [decode, hnone]⟩

/-- Settles O4: two rows that select one word build the one instruction it decodes to, whose mnemonic is that of both. -/
theorem opcodeRowsAreExclusive : Obligations.OpcodeRowsAreExclusive := by
  refine fun w => ⟨fun r hr r' hr' hw hw' => ?_, fun r hr => decode_of_selects hr, decode_error_of_no_row⟩
  have hbuild : r.build (aField w) (bField w) = r'.build (aField w) (bField w) :=
    Except.ok.inj ((decode_of_selects hr hw).symm.trans (decode_of_selects hr' hw'))
  obtain ⟨-, -, hname⟩ := selectsEncodings_of_mem hr w hw
  obtain ⟨-, -, hname'⟩ := selectsEncodings_of_mem hr' w hw'
  rw [← hname, ← hname', hbuild]

/-- Settles O5: eight words are encodings, one has a non-zero must-be-zero byte, one a reserved opcode. -/
theorem writtenWordsDecode : Obligations.WrittenWordsDecode :=
  ⟨decode_encode (i := .pwmSet 1 0xC0) rfl, decode_encode (i := .pwmGet 3) rfl,
    decode_encode (i := .pwmCycleStartup) rfl, decode_encode (i := .pwmCycleShutdown) rfl,
    decode_encode (i := .pwmCycle 254) rfl, decode_encode (i := .rngPump) rfl,
    decode_encode (i := .rngAddEntropy 0xA7) rfl, decode_encode (i := .rngGet 255) rfl,
    decode_eq_error_operandField (.inl (by decide)), decode_eq_error_opcode_iff.mpr (by decide)⟩

end Sys2Proof

namespace Sys2Proof.Machine

/-! ### The duty registers over a run (R51, R52, R100 to R103) -/

/-- Settles O17: the write rule of the channel space gives the duties, and the fields the operation leaves alone the
rest. -/
theorem pwmSetStoresTheDuty : Obligations.PwmSetStoresTheDuty := by
  intro ch d s
  refine ⟨_, exec_pwmSet_next.mpr rfl, rfl, fun c => ?_, fun hc => ?_, rfl, rfl, rfl, rfl, rfl, rfl⟩
  · exact channelRead_channelWrite s (channelIndex ch) c d
  · rw [State.answer_duty, channelWrite_unbacked (c := channelIndex ch) hc]

/-- Settles O18: the value answered is the read rule of the channel space (R51). -/
theorem pwmGetReturnsTheDuty : Obligations.PwmGetReturnsTheDuty :=
  fun _ _ => exec_pwmGet_next.mpr rfl

theorem channelRead_of_duty_eq {s t : State} (hduty : t.duty = s.duty) (hparams : t.params = s.params) (c : Nat) :
    t.channelRead c = s.channelRead c := by
  rw [State.channelRead, State.channelRead, hduty, hparams]

/-- Only a `pwm_set` to a channel changes what it reads (R22, R103). -/
theorem exec_keeps_channelRead {i : Instr} {s t : State} (h : exec i s = .next t) {c : Byte}
    (hi : ∀ d, i ≠ .pwmSet c d) : t.channelRead c.toNat = s.channelRead c.toNat := by
  by_cases hset : ∃ ch d, i = .pwmSet ch d
  · obtain ⟨ch, d, rfl⟩ := hset
    obtain rfl := exec_pwmSet_next.mp h
    have hne : c.toNat ≠ channelIndex ch := fun heq => hi d (by rw [BitVec.eq_of_toNat_eq heq])
    simp [channelRead_channelWrite, hne]
  · obtain ⟨hduty, -, -, hparams, -⟩ := elementsAreWrittenByTheirInstructionsAlone i s t h
    exact channelRead_of_duty_eq (hduty fun ch d heq => hset ⟨ch, d, heq⟩) hparams _

/-- A sequence of one instruction more: it has a next state, and the rest runs on from there. -/
theorem runInstrs_cons_next {i : Instr} {rest : List Instr} {s u : State} :
    runInstrs (i :: rest) s = .next u ↔ ∃ t, exec i s = .next t ∧ runInstrs rest t = .next u := by
  simp only [runInstrs]
  cases exec i s <;> simp

theorem runInstrs_keeps_channelRead {between : List Instr} {s u : State} {c : Byte}
    (hb : ∀ i ∈ between, ∀ d, i ≠ .pwmSet c d) (h : runInstrs between s = .next u) :
    u.channelRead c.toNat = s.channelRead c.toNat := by
  induction between generalizing s with
  | nil => rw [Host.Outcome.next.inj h]
  | cons i rest ih =>
    obtain ⟨hi, hrest⟩ := List.forall_mem_cons.mp hb
    obtain ⟨t, hexec, hrun⟩ := runInstrs_cons_next.mp h
    rw [ih hrest hrun, exec_keeps_channelRead hexec hi]

/-- Settles O19: nothing between the two accesses changes what the channel reads; an unbacked channel is neither
written nor read. -/
theorem getReturnsTheLastSet : Obligations.GetReturnsTheLastSet := by
  refine ⟨fun c d s hc => ⟨_, exec_pwmSet_next.mpr rfl, fun between u hb hrun => ?_⟩, fun c d s hc => ⟨?_, ?_⟩⟩
  · refine ⟨_, exec_pwmGet_next.mpr rfl, ?_⟩
    have hwritten : (s.channelWrite (channelIndex c) d).channelRead c.toNat = d := by
      simp [channelRead_channelWrite, channelIndex, hc]
    rw [State.answer_result, channelIndex, runInstrs_keeps_channelRead hb hrun, channelRead_answer, hwritten]
  · exact exec_pwmSet_next.mpr (by rw [channelWrite_unbacked (c := channelIndex c) hc]; rfl)
  · exact exec_pwmGet_next.mpr (by rw [channelRead_unbacked (c := channelIndex c) hc]; rfl)

end Sys2Proof.Machine

namespace Sys2Proof.Machine

/-! ### The ticks at which a duty is ON (R105, R114 to R116) -/

/-- With `L * q = 256` the scaling is a multiplication by `q`, and the last tick of the cycle is at most 254 (R116). -/
theorem threshold_eq_mul {p : Params} {t q : Nat} (ht : t < p.cycleLength) (hq : 2 ≤ q)
    (h : p.cycleLength * q = 256) :
    256 * t / p.cycleLength = t * q ∧ threshold p t = t * q ∧ t * q ≤ 254 := by
  have hdiv : 256 * t / p.cycleLength = t * q := by
    rw [← h, Nat.mul_assoc, Nat.mul_div_cancel_left _ (cycleLength_pos p), Nat.mul_comm]
  have hle : t * q + q ≤ 256 := by
    calc t * q + q = (t + 1) * q := (Nat.succ_mul t q).symm
      _ ≤ p.cycleLength * q := Nat.mul_le_mul_right q ht
      _ = 256 := h
  refine ⟨hdiv, ?_, by omega⟩
  rw [threshold, hdiv]
  omega

/-- Settles O26: `256 div L` is the `q` of `L * q = 256`. -/
theorem thresholdIsExact : Obligations.ThresholdIsExact := by
  intro p t ht
  obtain ⟨q, hq, h⟩ := cycleLength_mul p
  obtain ⟨hdiv, hthreshold, hle⟩ := threshold_eq_mul ht hq h
  have hscale : 256 / p.cycleLength = q := by rw [← h, Nat.mul_div_cancel_left _ (cycleLength_pos p)]
  exact ⟨by rw [hthreshold, hdiv], by rw [hthreshold, hscale], by omega⟩

/-- The comparison of R105 as a bound on the tick: the duty is ON at the ticks before `ceil(d * L / 256)` (R114). -/
theorem threshold_lt_iff {p : Params} {t : Nat} (ht : t < p.cycleLength) (d : Nat) :
    threshold p t < d ↔ t < (d * p.cycleLength + 255) / 256 := by
  obtain ⟨q, hq, h⟩ := cycleLength_mul p
  obtain ⟨-, hthreshold, -⟩ := threshold_eq_mul ht hq h
  have hscaled : t * q * p.cycleLength = 256 * t := by rw [← h]; ring
  calc threshold p t < d ↔ t * q * p.cycleLength < d * p.cycleLength := by
        rw [hthreshold, Nat.mul_lt_mul_right (cycleLength_pos p)]
    _ ↔ t < (d * p.cycleLength + 255) / 256 := by rw [hscaled]; omega

theorem ceil_le_cycleLength {p : Params} {d : Nat} (hd : d ≤ 255) :
    (d * p.cycleLength + 255) / 256 ≤ p.cycleLength := by
  have : d * p.cycleLength ≤ 255 * p.cycleLength := Nat.mul_le_mul_right _ hd
  omega

theorem onTicks_eq_count (p : Params) (d : Nat) :
    onTicks p d = Nat.count (fun t => isOn d (threshold p t) = true) p.cycleLength := by
  simp [onTicks, Nat.count, List.countP_eq_length_filter]

theorem count_lt_eq {b n : Nat} (h : b ≤ n) : Nat.count (· < b) n = b := by
  obtain ⟨k, rfl⟩ := Nat.exists_eq_add_of_le h
  rw [Nat.count_add, Nat.count_iff_forall.mpr fun t ht => ht, Nat.count_iff_forall_not.mpr fun t _ => by omega]
  rfl

/-- Two properties that agree below `n` are counted alike. -/
theorem count_congr_below {p q : Nat → Prop} [DecidablePred p] [DecidablePred q] {n : Nat}
    (h : ∀ t < n, p t ↔ q t) : Nat.count p n = Nat.count q n :=
  Nat.le_antisymm (Nat.count_mono_left fun t ht => (h t ht).mp) (Nat.count_mono_left fun t ht => (h t ht).mpr)

/-- The closed form of R114. -/
theorem onTicks_eq {p : Params} {d : Nat} (hd : d ≤ 255) : onTicks p d = (d * p.cycleLength + 255) / 256 := by
  calc onTicks p d = Nat.count (fun t => isOn d (threshold p t) = true) p.cycleLength := onTicks_eq_count p d
    _ = Nat.count (· < (d * p.cycleLength + 255) / 256) p.cycleLength :=
        count_congr_below fun t ht => by rw [isOn, decide_eq_true_iff, threshold_lt_iff ht]
    _ = (d * p.cycleLength + 255) / 256 := count_lt_eq (ceil_le_cycleLength hd)

/-- The ON ticks of a duty are the first of the cycle (R114). -/
theorem threshold_lt_iff_lt_onTicks {p : Params} {t d : Nat} (ht : t < p.cycleLength) (hd : d ≤ 255) :
    threshold p t < d ↔ t < onTicks p d := by
  rw [onTicks_eq hd, threshold_lt_iff ht]

theorem onTicks_le {p : Params} {d : Nat} (hd : d ≤ 255) : onTicks p d ≤ p.cycleLength :=
  (onTicks_eq hd).trans_le (ceil_le_cycleLength hd)

/-- Settles O27: the edge duties and the rounding bound are read off the closed form. -/
theorem onTicksOfADuty : Obligations.OnTicksOfADuty := by
  intro p d hd
  have hzero : onTicks p 0 = (0 * p.cycleLength + 255) / 256 := onTicks_eq (by omega)
  have hfull : onTicks p 255 = (255 * p.cycleLength + 255) / 256 := onTicks_eq (by omega)
  have hclosed := onTicks_eq (p := p) hd
  have hL := cycleLength_le p
  exact ⟨hclosed, fun t ht => threshold_lt_iff_lt_onTicks ht hd, by omega, by omega, by omega, by omega⟩

end Sys2Proof.Machine

namespace Sys2Proof.Machine

/-! ### Pins and NextTick (R105, R106) -/

theorem dutyValue_le (d : Byte) : dutyValue d ≤ 255 := Nat.le_of_lt_succ d.isLt

theorem le_of_mem_duties {s : State} {d : Nat} (h : d ∈ s.duties) : d ≤ 255 := by
  obtain ⟨c, -, rfl⟩ := mem_duties.mp h
  exact dutyValue_le _

theorem mem_onDuties_iff {s : State} {t d : Nat} : d ∈ s.onDuties t ↔ d ∈ s.duties ∧ threshold s.params t < d := by
  rw [mem_onDuties, mem_duties]

/-- The pins show, of each duty, whether it is ON, and no more. -/
theorem pinsAt_eq_iff {s : State} {t u : Nat} :
    s.pinsAt t = s.pinsAt u ↔ ∀ d ∈ s.duties, (threshold s.params t < d ↔ threshold s.params u < d) := by
  simp only [State.pinsAt, List.map_inj_left, isOn, decide_eq_true_eq]
  refine forall₂_congr fun d _ => ?_
  by_cases ht : threshold s.params t < d <;> by_cases hu : threshold s.params u < d <;> simp [ht, hu]

/-- `NextTick` in terms of R114: the wrap where no duty is ON, else the last ON tick of the least ON duty, plus one. -/
theorem nextTick_eq_onTicks_cases (s : State) (t : Nat) :
    (s.onDuties t = [] ∧ s.nextTick t = s.params.cycleLength) ∨
    (∃ m, m ∈ s.onDuties t ∧ (∀ d ∈ s.onDuties t, m ≤ d) ∧ s.nextTick t = onTicks s.params m) := by
  obtain hnone | ⟨m, hm, hleast, hnext⟩ := nextTick_cases s t
  · exact .inl hnone
  · exact .inr ⟨m, hm, hleast, by rw [hnext, onTicks_eq (le_of_mem_duties (mem_onDuties_iff.mp hm).1)]⟩

theorem nextTick_le (s : State) (k : Nat) : s.nextTick k ≤ s.params.cycleLength := by
  obtain ⟨-, hnext⟩ | ⟨m, hm, -, hnext⟩ := nextTick_eq_onTicks_cases s k
  · exact hnext.le
  · exact hnext.trans_le (onTicks_le (le_of_mem_duties (mem_onDuties_iff.mp hm).1))

theorem lt_nextTick {s : State} {k : Nat} (hk : k < s.params.cycleLength) : k < s.nextTick k := by
  obtain ⟨-, hnext⟩ | ⟨m, hm, -, hnext⟩ := nextTick_eq_onTicks_cases s k
  · exact hk.trans_eq hnext.symm
  · obtain ⟨hmem, hon⟩ := mem_onDuties_iff.mp hm
    exact ((threshold_lt_iff_lt_onTicks hk (le_of_mem_duties hmem)).mp hon).trans_eq hnext.symm

/-- A duty that is ON now stays ON up to `NextTick`. -/
theorem isOn_before_nextTick {s : State} {k u d : Nat} (hu : u < s.nextTick k) (hd : d ∈ s.onDuties k) :
    threshold s.params u < d := by
  have huL : u < s.params.cycleLength := hu.trans_le (nextTick_le s k)
  obtain ⟨hnone, -⟩ | ⟨m, hm, hleast, hnext⟩ := nextTick_eq_onTicks_cases s k
  · simp [hnone] at hd
  · have hm255 : m ≤ 255 := le_of_mem_duties (mem_onDuties_iff.mp hm).1
    calc threshold s.params u < m := (threshold_lt_iff_lt_onTicks huL hm255).mpr (hu.trans_eq hnext)
      _ ≤ d := hleast d hd

/-- No pin changes from a tick up to its `NextTick`. -/
theorem pinsAt_before_nextTick {s : State} {k u : Nat} (hku : k ≤ u) (hu : u < s.nextTick k) :
    s.pinsAt u = s.pinsAt k := by
  have huL : u < s.params.cycleLength := hu.trans_le (nextTick_le s k)
  refine pinsAt_eq_iff.mpr fun d hd => ⟨fun h => ?_, fun h => isOn_before_nextTick hu (mem_onDuties_iff.mpr ⟨hd, h⟩)⟩
  have hd255 := le_of_mem_duties hd
  have hlt : u < onTicks s.params d := (threshold_lt_iff_lt_onTicks huL hd255).mp h
  exact (threshold_lt_iff_lt_onTicks (hku.trans_lt huL) hd255).mpr (hku.trans_lt hlt)

/-- Where `NextTick` is not the wrap, the least ON duty goes OFF at it. -/
theorem pinsAt_nextTick_ne {s : State} {k : Nat} (h : s.nextTick k < s.params.cycleLength) :
    s.pinsAt (s.nextTick k) ≠ s.pinsAt k := by
  obtain ⟨-, hnext⟩ | ⟨m, hm, -, hnext⟩ := nextTick_eq_onTicks_cases s k
  · exact absurd hnext h.ne
  · obtain ⟨hmem, hon⟩ := mem_onDuties_iff.mp hm
    intro heq
    have hstill : threshold s.params (s.nextTick k) < m := (pinsAt_eq_iff.mp heq m hmem).mpr hon
    have hbefore := (threshold_lt_iff_lt_onTicks h (le_of_mem_duties hmem)).mp hstill
    exact hbefore.ne hnext

/-- Settles O28: the bounds of `NextTick`, what holds before it and what happens at it. -/
theorem nextTickIsTheNextTransition : Obligations.NextTickIsTheNextTransition :=
  fun s k hk => ⟨lt_nextTick hk, nextTick_le s k, fun _ => pinsAt_before_nextTick, pinsAt_nextTick_ne⟩

/-! ### The wake request (R107, R118) -/

theorem noChannelOn_iff {s : State} {k : Nat} : s.NoChannelOn k ↔ s.onDuties k = [] := by
  simp only [List.eq_nil_iff_forall_not_mem, mem_onDuties, not_and, not_lt]
  constructor
  · rintro h d ⟨c, hc, rfl⟩
    exact h c hc
  · exact fun h c hc => h _ ⟨c, hc, rfl⟩

theorem isLeastOnDuty_iff {s : State} {k m : Nat} :
    s.IsLeastOnDuty k m ↔ m ∈ s.onDuties k ∧ ∀ d ∈ s.onDuties k, m ≤ d := by
  constructor
  · rintro ⟨hmem, hon, hleast⟩
    refine ⟨mem_onDuties.mpr ⟨hmem, hon⟩, fun d hd => ?_⟩
    obtain ⟨⟨c, hc, rfl⟩, hd⟩ := mem_onDuties.mp hd
    exact hleast c hc hd
  · rintro ⟨hm, hleast⟩
    obtain ⟨hmem, hon⟩ := mem_onDuties.mp hm
    exact ⟨hmem, hon, fun c hc h => hleast _ (mem_onDuties.mpr ⟨⟨c, hc, rfl⟩, h⟩)⟩

/-- `NextTick` is the wrap exactly where no ON channel goes OFF before it. -/
theorem nextTick_eq_cycleLength_iff {s : State} {k : Nat} :
    s.nextTick k = s.params.cycleLength ↔ s.NoChannelOn k ∨
      ∃ m, s.IsLeastOnDuty k m ∧ (m * s.params.cycleLength + 255) / 256 = s.params.cycleLength := by
  simp only [noChannelOn_iff, isLeastOnDuty_iff]
  constructor
  · intro h
    obtain ⟨hnone, -⟩ | ⟨m, hm, hleast, hnext⟩ := nextTick_cases s k
    · exact .inl hnone
    · exact .inr ⟨m, ⟨hm, hleast⟩, hnext.symm.trans h⟩
  · rintro (hnone | ⟨m, ⟨hm, hleast⟩, hwrap⟩)
    · exact nextTick_of_none hnone
    · rw [nextTick_of_least hm hleast, hwrap]

theorem tickAfter_lt (s : State) (e : Byte) : s.tickAfter e < s.params.cycleLength :=
  Nat.mod_lt _ (cycleLength_pos _)

/-- The wake request fits its byte: no request reaches 0xFF. -/
theorem wakeByte_nextWake_toNat (s : State) (k : Nat) : (wakeByte (s.nextWake k)).toNat = max 1 (s.nextTick k - k) := by
  have hnext := nextTick_le s k
  have hL := cycleLength_le s.params
  rw [wakeByte, BitVec.toNat_ofNat, State.nextWake, Config.timeUnitMs, Nat.mul_one, Nat.mod_eq_of_lt (by omega)]

/-- Within the cycle the lower bound of R107 never binds. -/
theorem wakeByte_nextWake_of_lt {s : State} {k : Nat} (hk : k < s.params.cycleLength) :
    (wakeByte (s.nextWake k)).toNat = s.nextTick k - k := by
  have := lt_nextTick hk
  rw [wakeByte_nextWake_toNat]
  omega

/-- What STARTUP and a real elapsed time have in common: they lead to a tick of the cycle (R104, R108). -/
theorem exec_cycle_or_startup_next {i : Instr} {s t : State} (hi : i = .pwmCycleStartup ∨ ∃ e, i = .pwmCycle e)
    (h : exec i s = .next t) : ∃ k, k < s.params.cycleLength ∧ t = s.runTick k := by
  obtain rfl | ⟨e, rfl⟩ := hi
  · exact ⟨0, cycleLength_pos _, (exec_pwmCycleStartup_next.mp h).2⟩
  · exact ⟨s.tickAfter e, tickAfter_lt s e, (exec_pwmCycle_next.mp h).2⟩

/-- Settles O29: the request is `NextTick - tick`, with `tick < NextTick ≤ L`. -/
theorem wakeRequestsLieInTheCycle : Obligations.WakeRequestsLieInTheCycle := by
  intro i s t hi _ h
  obtain ⟨k, hk, rfl⟩ := exec_cycle_or_startup_next hi h
  have hwake := wakeByte_nextWake_of_lt hk
  have hafter := lt_nextTick hk
  have hwrap := nextTick_le s k
  refine ⟨_, rfl, by omega, by omega, ?_⟩
  rw [State.runTick_tick, ← nextTick_eq_cycleLength_iff, hwake]
  omega

/-! ### The `pwm_cycle` family (R104, R108, R110, R112) -/

/-- `State.runTick` meets the formulas of R105 to R107. -/
theorem runTick_runsTick (s : State) (k : Nat) : s.RunsTick (s.runTick k) k where
  tick := rfl
  phase := rfl
  pin_count := pinsAt_length s k
  pins c hc := by
    rw [State.runTick_pin, pinsAt_getElem? s k c hc]
    simp only [isOn, decide_eq_true_eq]
    rfl
  wake_on m hm := by
    obtain ⟨hmem, hleast⟩ := isLeastOnDuty_iff.mp hm
    exact ⟨_, rfl, by rw [wakeByte_nextWake_toNat, nextTick_of_least hmem hleast]⟩
  wake_wrap hnone := ⟨_, rfl, by rw [wakeByte_nextWake_toNat, nextTick_of_none (noChannelOn_iff.mp hnone)]⟩
  duty := rfl
  lfsr := rfl
  params := rfl
  inbox := rfl

theorem exec_pwmCycleStartup_refused {s : State} (h : s.phase ≠ .pre) :
    exec .pwmCycleStartup s = .refused .startupOutsidePre := by
  simp only [exec, execPwmCycleStartup]
  cases hp : s.phase with
  | pre => exact absurd hp h
  | run => rfl
  | halt => rfl

theorem exec_pwmCycleShutdown_refused {s : State} (h : s.phase ≠ .run) :
    exec .pwmCycleShutdown s = .refused .shutdownOutsideRun := by
  simp only [exec, execPwmCycleShutdown]
  cases hp : s.phase with
  | run => exact absurd hp h
  | pre => rfl
  | halt => rfl

theorem exec_pwmCycle_refused {s : State} (h : s.phase ≠ .run) (e : Byte) :
    exec (.pwmCycle e) s = .refused .cycleOutsideRun := by
  simp only [exec, execPwmCycle]
  cases hp : s.phase with
  | run => exact absurd hp h
  | pre => rfl
  | halt => rfl

/-- Settles O21: in phase RUN by the relation `State.RunsTick` at the advanced tick. -/
theorem pwmCycleAdvancesTheCycle : Obligations.PwmCycleAdvancesTheCycle :=
  fun e s _ _ => ⟨fun hp => ⟨_, exec_pwmCycle_next.mpr ⟨hp, rfl⟩, runTick_runsTick s (s.tickAfter e)⟩,
    fun hp => exec_pwmCycle_refused hp e⟩

/-- Settles O22: in phase PRE by the same relation at tick 0. -/
theorem startupBeginsTheSession : Obligations.StartupBeginsTheSession :=
  fun s => ⟨fun hp => ⟨_, exec_pwmCycleStartup_next.mpr ⟨hp, rfl⟩, runTick_runsTick s 0⟩,
    exec_pwmCycleStartup_refused⟩

/-- Settles O23: the instruction completes in phase RUN alone. -/
theorem shutdownReleasesThePins : Obligations.ShutdownReleasesThePins :=
  fun _ => ⟨fun hp => exec_pwmCycleShutdown_next.mpr ⟨hp, rfl⟩, exec_pwmCycleShutdown_refused⟩

/-- The instructions outside the `pwm_cycle` family complete in every phase and keep it, or hang (R112, R144, R148). -/
theorem exec_other_cases {i : Instr} (hi : i.isCycleFamily = false) (s : State) :
    (∃ t, exec i s = .next t ∧ t.phase = s.phase) ∨
    ((∃ m, i = .rngGet m) ∧ exec i s = .fault .rngGetNeverReturns) := by
  cases i with
  | pwmSet ch d => exact .inl ⟨_, exec_pwmSet_next.mpr rfl, rfl⟩
  | pwmGet ch => exact .inl ⟨_, exec_pwmGet_next.mpr rfl, rfl⟩
  | rngPump => exact .inl ⟨_, exec_rngPump s, rfl⟩
  | rngAddEntropy entropy => exact .inl ⟨_, exec_rngAddEntropy entropy s, rfl⟩
  | rngGet maximum =>
    obtain ⟨j, -, -, -, -, hnext⟩ | ⟨-, -, hhang⟩ := execRngGet_cases maximum s
    · exact .inl ⟨_, hnext, rfl⟩
    · exact .inr ⟨⟨maximum, rfl⟩, hhang⟩
  | pwmCycleStartup | pwmCycleShutdown | pwmCycle => cases hi

/-- Settles O24: when each `pwm_cycle` instruction completes and where it leads, and then the other five. -/
theorem sessionProtocolTable : Obligations.SessionProtocolTable := by
  refine ⟨fun s => ?_, fun s t h => ?_, fun e s _ => ?_, fun e s t _ h => ?_, fun s => ?_, fun s t h => ?_,
    fun i s hi => exec_other_cases hi s⟩
  · simp [exec_pwmCycleStartup_next]
  · obtain ⟨-, rfl⟩ := exec_pwmCycleStartup_next.mp h
    rfl
  · simp [exec_pwmCycle_next]
  · obtain ⟨-, rfl⟩ := exec_pwmCycle_next.mp h
    rfl
  · simp [exec_pwmCycleShutdown_next]
  · obtain ⟨-, rfl⟩ := exec_pwmCycleShutdown_next.mp h
    rfl

/-- A tick run over another leaves no trace of it: pins and wake are settled by the duties and the tick (R104). -/
theorem runTick_runTick (s : State) (k k' : Nat) : (s.runTick k).runTick k' = s.runTick k' := rfl

theorem tickAfter_runTick_tickAfter (s : State) (e₁ e₂ : Byte) :
    (s.runTick (s.tickAfter e₁)).tickAfter e₂ = (s.tick + (e₁.toNat + e₂.toNat)) % s.params.cycleLength := by
  simp [State.tickAfter, elapsedTicks, Nat.add_assoc]

/-- Settles O30: the tick advances by congruent amounts, and nothing else remembers the invocation between. -/
theorem earlyInvocationsAreHarmless : Obligations.EarlyInvocationsAreHarmless := by
  intro s e e₁ e₂ hp _ _ _ hcongr
  refine ⟨_, s.runTick (s.tickAfter e), exec_pwmCycle_next.mpr ⟨hp, rfl⟩, exec_pwmCycle_next.mpr ⟨rfl, ?_⟩,
    exec_pwmCycle_next.mpr ⟨hp, rfl⟩⟩
  have htick : (s.tick + (e₁.toNat + e₂.toNat)) % s.params.cycleLength = s.tickAfter e :=
    Nat.ModEq.add_left s.tick hcongr
  rw [runTick_runTick, tickAfter_runTick_tickAfter, htick]

end Sys2Proof.Machine

namespace Sys2Proof.Machine

/-! ### The ticks at which a pin is ON (R114, R119) -/

/-- Whether pin `c` is ON at the `t`-th tick counted from a tick 0, with the duties as they are (R105). -/
def State.pinOnAt (s : State) (c t : Nat) : Bool := decide ((s.pinsAt (t % s.params.cycleLength))[c]? = some .on)

/-- The number of the first `n` ticks, counted from a tick 0, at which pin `c` is ON. -/
def State.onTimeOver (s : State) (c n : Nat) : Nat := Nat.count (fun t => s.pinOnAt c t = true) n

theorem pinOnAt_iff {s : State} {c t : Nat} :
    s.pinOnAt c t = true ↔ (s.pinsAt (t % s.params.cycleLength))[c]? = some .on := by
  rw [State.pinOnAt, decide_eq_true_iff]

theorem pinOnAt_iff_isOn {s : State} {c t : Nat} (hc : c < s.params.numChannels) (ht : t < s.params.cycleLength) :
    s.pinOnAt c t = true ↔ isOn (s.channelRead c).toNat (threshold s.params t) = true := by
  rw [pinOnAt_iff, Nat.mod_eq_of_lt ht, pinsAt_getElem? s t c hc, dutyValue]
  cases isOn (s.channelRead c).toNat (threshold s.params t) <;> simp

theorem pinOnAt_cycle_add (s : State) (c m t : Nat) : s.pinOnAt c (s.params.cycleLength * m + t) = s.pinOnAt c t := by
  rw [State.pinOnAt, State.pinOnAt, Nat.mul_add_mod]

@[simp] theorem onTimeOver_zero (s : State) (c : Nat) : s.onTimeOver c 0 = 0 := Nat.count_zero _

/-- Up to `NextTick` the pin stays as it is, so it gains all of the ticks that pass or none. -/
theorem onTimeOver_add {s : State} {n e : Nat}
    (h : n % s.params.cycleLength + e ≤ s.nextTick (n % s.params.cycleLength)) (c : Nat) :
    s.onTimeOver c (n + e) =
      s.onTimeOver c n + if (s.pinsAt (n % s.params.cycleLength))[c]? = some .on then e else 0 := by
  have hsame (k : Nat) (hk : k < e) :
      s.pinOnAt c (n + k) = true ↔ (s.pinsAt (n % s.params.cycleLength))[c]? = some .on := by
    have hbefore : n % s.params.cycleLength + k < s.nextTick (n % s.params.cycleLength) := by omega
    have htick : (n + k) % s.params.cycleLength = n % s.params.cycleLength + k := by
      rw [← Nat.mod_add_mod, Nat.mod_eq_of_lt (hbefore.trans_le (nextTick_le s _))]
    rw [pinOnAt_iff, htick, pinsAt_before_nextTick (Nat.le_add_right _ k) hbefore]
  rw [State.onTimeOver, Nat.count_add, count_congr_below hsame]
  by_cases hon : (s.pinsAt (n % s.params.cycleLength))[c]? = some .on <;> simp [hon, State.onTimeOver]

/-- In each whole cycle pin `c` is ON for `on_ticks` of its duty (R114). -/
theorem onTimeOver_cycles {s : State} {c : Nat} (hc : c < s.params.numChannels) (m : Nat) :
    s.onTimeOver c (s.params.cycleLength * m) = onTicks s.params (s.channelRead c).toNat * m := by
  induction m with
  | zero => simp
  | succ m ih =>
    have hcycle : Nat.count (fun t => s.pinOnAt c (s.params.cycleLength * m + t) = true) s.params.cycleLength =
        onTicks s.params (s.channelRead c).toNat := by
      rw [onTicks_eq_count]
      exact count_congr_below fun t ht => by rw [pinOnAt_cycle_add, pinOnAt_iff_isOn hc ht]
    rw [Nat.mul_succ, Nat.mul_succ, State.onTimeOver, Nat.count_add, hcycle, ← ih, State.onTimeOver]

/-! ### The engine over a run that follows its wakes (R119, R120) -/

theorem duties_of_duty_eq {s t : State} (hduty : t.duty = s.duty) (hparams : t.params = s.params) :
    t.duties = s.duties := by
  simp only [State.duties, channelRead_of_duty_eq hduty hparams, hparams]

theorem pinsAt_of_duty_eq {s t : State} (hduty : t.duty = s.duty) (hparams : t.params = s.params) (k : Nat) :
    t.pinsAt k = s.pinsAt k := by
  simp only [State.pinsAt, duties_of_duty_eq hduty hparams, hparams]

theorem nextTick_of_duty_eq {s t : State} (hduty : t.duty = s.duty) (hparams : t.params = s.params) (k : Nat) :
    t.nextTick k = s.nextTick k := by
  simp only [State.nextTick, State.onDuties, duties_of_duty_eq hduty hparams, hparams]

theorem nextWake_of_duty_eq {s t : State} (hduty : t.duty = s.duty) (hparams : t.params = s.params) (k : Nat) :
    t.nextWake k = s.nextWake k := by
  rw [State.nextWake, State.nextWake, nextTick_of_duty_eq hduty hparams]

/-- The engine stands at tick `k` with the duties of `s`: it drives the pins of that tick and has asked for its wake. -/
structure RunHistory.AtTick (h : RunHistory) (s : State) (k : Nat) : Prop where
  tick : h.state.tick = k
  pin : h.state.pin = s.pinsAt k
  asked : h.asked = some (wakeByte (s.nextWake k))

/-- The invariant of a run that began with the STARTUP call in state `s` and has kept its duties: in the session the
engine stands at the tick that the milliseconds since tick 0 lead to, and each pin has been ON for exactly those of the
ticks passed at which its duty is ON. -/
structure RunHistory.OnSchedule (h : RunHistory) (s : State) : Prop where
  duty : h.state.duty = s.duty
  params : h.state.params = s.params
  started : h.state.phase ≠ .pre
  atTick : h.state.phase = .run → h.AtTick s (Machine.window h.intervals % s.params.cycleLength)
  onTime : ∀ c, ∀ first, first <+: h.intervals → Machine.onTime c first = s.onTimeOver c (Machine.window first)

/-- What each command of a run keeps of its history holds at the run's end. -/
theorem RunHistory.run_keeps {P : RunHistory → Prop} {commands : List Instr} {h h' : RunHistory}
    (hstep : ∀ i ∈ commands, ∀ h t, exec i h.state = .next t → P h → P (h.record i t))
    (hrun : RunHistory.run commands h = .next h') (hP : P h) : P h' := by
  induction commands generalizing h with
  | nil => exact Host.Outcome.next.inj hrun ▸ hP
  | cons i rest ih =>
    obtain ⟨hi, hrest⟩ := List.forall_mem_cons.mp hstep
    obtain ⟨t, hexec, hrun⟩ := RunHistory.run_cons_next.mp hrun
    exact ih hrest hrun (hi h t hexec hP)

theorem RunHistory.wakesInTime_of_record {h : RunHistory} {i : Instr} {t : State} (hw : (h.record i t).WakesInTime) :
    h.WakesInTime :=
  fun x hx => hw x (List.mem_append_left _ hx)

theorem window_singleton (i : Interval) : window [i] = elapsedTicks i.elapsed := rfl

theorem onTime_singleton (c : Nat) (i : Interval) :
    onTime c [i] = if i.pins[c]? = some .on then elapsedTicks i.elapsed else 0 := rfl

theorem RunHistory.OnSchedule.tick_lt {h : RunHistory} {s : State} (hs : h.OnSchedule s)
    (hrun : h.state.phase = .run) : h.state.tick < s.params.cycleLength :=
  (hs.atTick hrun).tick ▸ Nat.mod_lt _ (cycleLength_pos _)

/-- One more interval, no longer than the wake asked for, keeps the account of the ON time. -/
theorem RunHistory.OnSchedule.onTime_prefix_concat {h : RunHistory} {s : State} (hs : h.OnSchedule s)
    {e : Byte} (hrun : h.state.phase = .run)
    (he : h.state.tick + elapsedTicks e ≤ s.nextTick h.state.tick) (c : Nat) (first : List Interval)
    (hfirst : first <+: h.intervals ++ [⟨h.state.pin, h.asked, e⟩]) :
    Machine.onTime c first = s.onTimeOver c (Machine.window first) := by
  obtain rfl | hfirst := List.prefix_concat_iff.mp hfirst
  · obtain ⟨htick, hpin, -⟩ := hs.atTick hrun
    rw [htick] at he
    rw [window_append, onTime_append, window_singleton, onTime_singleton, onTimeOver_add he,
      hs.onTime c _ (List.prefix_refl _), hpin]
  · exact hs.onTime c first hfirst

/-- A host that keeps H5 invokes the engine no later than `NextTick`. -/
theorem RunHistory.OnSchedule.elapsed_le_of_wakesInTime {h : RunHistory} {s t : State} (hs : h.OnSchedule s)
    (hrun : h.state.phase = .run) {e : Byte} (hw : (h.record (.pwmCycle e) t).WakesInTime) :
    h.state.tick + elapsedTicks e ≤ s.nextTick h.state.tick := by
  obtain ⟨htick, -, hasked⟩ := hs.atTick hrun
  have hlt := hs.tick_lt hrun
  have hnext := lt_nextTick hlt
  by_cases hzero : e = Config.shutdown
  · rw [hzero, show elapsedTicks Config.shutdown = 0 from rfl]
    exact hnext.le
  · obtain ⟨wake, hwake, hle⟩ := hw ⟨h.state.pin, h.asked, e⟩ (by simp [RunHistory.endedBy]) hzero
    obtain rfl : wakeByte (s.nextWake h.state.tick) = wake := by
      rw [htick]
      exact Option.some.inj (hasked.symm.trans hwake)
    have hbound : e.toNat ≤ s.nextTick h.state.tick - h.state.tick := wakeByte_nextWake_of_lt hlt ▸ hle
    rw [elapsedTicks]
    omega

/-- A real elapsed time no longer than asked for leads on the schedule to its next tick. -/
theorem RunHistory.OnSchedule.record_pwmCycle {h : RunHistory} {s : State} (hs : h.OnSchedule s)
    (hrun : h.state.phase = .run) {e : Byte} (he : h.state.tick + elapsedTicks e ≤ s.nextTick h.state.tick) :
    (h.record (.pwmCycle e) (h.state.runTick (h.state.tickAfter e))).OnSchedule s where
  duty := hs.duty
  params := hs.params
  started := by simp
  atTick _ := by
    have htick : h.state.tickAfter e =
        Machine.window (h.intervals ++ [⟨h.state.pin, h.asked, e⟩]) % s.params.cycleLength := by
      rw [State.tickAfter, (hs.atTick hrun).tick, hs.params, window_append, window_singleton, Nat.mod_add_mod]
    exact ⟨htick, (pinsAt_of_duty_eq hs.duty hs.params _).trans (congrArg s.pinsAt htick), by
      simp [Instr.isCycleFamily, nextWake_of_duty_eq hs.duty hs.params, htick, RunHistory.endedBy]⟩
  onTime := hs.onTime_prefix_concat hrun he

/-- The SHUTDOWN call ends the last interval after no time. -/
theorem RunHistory.OnSchedule.record_pwmCycleShutdown {h : RunHistory} {s : State} (hs : h.OnSchedule s)
    (hrun : h.state.phase = .run) :
    (h.record .pwmCycleShutdown (h.state.releasePins.answer Config.shutdown)).OnSchedule s where
  duty := hs.duty
  params := hs.params
  started := by simp
  atTick hphase := by simp at hphase
  onTime := hs.onTime_prefix_concat hrun (lt_nextTick (hs.tick_lt hrun)).le

/-- A command outside the `pwm_cycle` family that is no `pwm_set` touches nothing the schedule speaks of. -/
theorem RunHistory.OnSchedule.record_other {h : RunHistory} {s t : State} (hs : h.OnSchedule s) {i : Instr}
    (hi : i.isCycleFamily = false) (hset : ∀ ch d, i ≠ .pwmSet ch d) (hexec : exec i h.state = .next t) :
    (h.record i t).OnSchedule s := by
  obtain ⟨hduty, hengine, -, hparams, -⟩ := elementsAreWrittenByTheirInstructionsAlone i h.state t hexec
  obtain ⟨htick, hpin, hphase⟩ := hengine hi
  rw [RunHistory.record_other hi]
  exact {
    duty := (hduty hset).trans hs.duty
    params := hparams.trans hs.params
    started := hphase.trans_ne hs.started
    atTick := fun hrun =>
      have hat := hs.atTick (hphase.symm.trans hrun)
      ⟨htick.trans hat.tick, hpin.trans hat.pin, hat.asked⟩
    onTime := hs.onTime }

/-- Every command but `pwm_set` keeps the schedule, the host waking the engine in time. -/
theorem RunHistory.OnSchedule.record {h : RunHistory} {s t : State} (hs : h.OnSchedule s) {i : Instr}
    (hset : ∀ ch d, i ≠ .pwmSet ch d) (hexec : exec i h.state = .next t) (hw : (h.record i t).WakesInTime) :
    (h.record i t).OnSchedule s := by
  cases i with
  | pwmCycleStartup => exact absurd (exec_pwmCycleStartup_next.mp hexec).1 hs.started
  | pwmCycleShutdown =>
    obtain ⟨hrun, rfl⟩ := exec_pwmCycleShutdown_next.mp hexec
    exact hs.record_pwmCycleShutdown hrun
  | pwmCycle e =>
    obtain ⟨hrun, rfl⟩ := exec_pwmCycle_next.mp hexec
    exact hs.record_pwmCycle hrun (hs.elapsed_le_of_wakesInTime hrun hw)
  | pwmSet | pwmGet | rngPump | rngAddEntropy | rngGet => exact hs.record_other rfl hset hexec

theorem RunHistory.onSchedule_startup (s : State) :
    (s.beginHistory.record .pwmCycleStartup (s.runTick 0)).OnSchedule s where
  duty := rfl
  params := rfl
  started := by simp
  atTick _ := by
    rw [show Machine.window _ = 0 from rfl, Nat.zero_mod]
    exact ⟨rfl, rfl, rfl⟩
  onTime c first hfirst := by
    obtain rfl : first = [] := List.prefix_nil.mp hfirst
    rfl

/-- Every run from the STARTUP call with its duties kept and the engine woken in time stays on the schedule. -/
theorem RunHistory.onSchedule_of_run {s : State} {commands : List Instr} {h : RunHistory}
    (hset : ∀ i ∈ commands, ∀ ch d, i ≠ .pwmSet ch d)
    (hrun : RunHistory.run (.pwmCycleStartup :: commands) s.beginHistory = .next h) (hw : h.WakesInTime) :
    h.OnSchedule s := by
  obtain ⟨t, hexec, hrun⟩ := RunHistory.run_cons_next.mp hrun
  obtain ⟨-, rfl⟩ := exec_pwmCycleStartup_next.mp hexec
  refine RunHistory.run_keeps (P := fun h => h.WakesInTime → h.OnSchedule s) ?_ hrun
    (fun _ => RunHistory.onSchedule_startup s) hw
  exact fun i hi h t hexec hP hw =>
    (hP (RunHistory.wakesInTime_of_record hw)).record (hset i hi) hexec hw

/-- On the schedule the wake asked for is a real elapsed time, and taking it lands on `NextTick` (R120). -/
theorem RunHistory.OnSchedule.wake_lands_on_nextTick {h : RunHistory} {s : State} (hs : h.OnSchedule s)
    (hrun : h.state.phase = .run) :
    ∃ w t, h.asked = some w ∧ (Instr.pwmCycle w).wellFormed = true ∧ exec (.pwmCycle w) h.state = .next t ∧
      t.tick = h.state.nextTick h.state.tick % s.params.cycleLength := by
  obtain ⟨htick, -, hasked⟩ := hs.atTick hrun
  rw [← htick] at hasked
  have hlt := hs.tick_lt hrun
  have hwake := wakeByte_nextWake_of_lt hlt
  have hafter := lt_nextTick hlt
  have hwrap := nextTick_le s h.state.tick
  have hL := cycleLength_le s.params
  refine ⟨_, _, hasked, wellFormed_pwmCycle_iff.mpr ⟨fun h0 => ?_, fun h255 => ?_⟩,
    exec_pwmCycle_next.mpr ⟨hrun, rfl⟩, ?_⟩
  · have : (wakeByte (s.nextWake h.state.tick)).toNat = 0 := by rw [h0]; rfl
    omega
  · have : (wakeByte (s.nextWake h.state.tick)).toNat = 255 := by rw [h255]; rfl
    omega
  · have hlands : h.state.tick + (s.nextTick h.state.tick - h.state.tick) = s.nextTick h.state.tick := by omega
    rw [State.runTick_tick, State.tickAfter, elapsedTicks, hwake, hlands, hs.params,
      nextTick_of_duty_eq hs.duty hs.params]

/-- Settles O31: the ON time is the number of ON ticks among the ticks passed, which every whole cycle has in the same
number. -/
theorem steadyStateDutyLaw : Obligations.SteadyStateDutyLaw := by
  intro s commands h hset hrun hw
  have hs : h.OnSchedule s := RunHistory.onSchedule_of_run hset hrun hw
  refine ⟨hs.wake_lands_on_nextTick, fun K c hc hwhole => ?_⟩
  obtain ⟨m, hm⟩ := Nat.dvd_of_mod_eq_zero hwhole
  have honTime : h.onTime c K = s.onTimeOver c (h.window K) := hs.onTime c _ (List.take_prefix K _)
  rw [honTime, hm, onTimeOver_cycles hc]
  ring

end Sys2Proof.Machine

namespace Sys2Proof.Machine

/-! ### The bytes of a register value (R31, R130, R131) -/

theorem getLsbD_wordByte (r : Word32) (i j : Nat) :
    (wordByte r i).getLsbD j = (decide (j < 8) && r.getLsbD (8 * i + j)) :=
  BitVec.getLsbD_extractLsb' ..

@[simp] theorem getElem_wordByte (r : Word32) (i : Nat) {j : Nat} (hj : j < 8) :
    (wordByte r i)[j] = r.getLsbD (8 * i + j) :=
  BitVec.getElem_extractLsb' hj

theorem wordByte_xor (a b : Word32) (i : Nat) : wordByte (a ^^^ b) i = wordByte a i ^^^ wordByte b i :=
  BitVec.extractLsb'_xor ..

/-- A register value is its four bytes. -/
theorem eq_iff_wordByte_eq {a b : Word32} : a = b ↔ ∀ i, i < 4 → wordByte a i = wordByte b i := by
  refine ⟨fun h i _ => by rw [h], fun h => BitVec.eq_of_getLsbD_eq fun n hn => ?_⟩
  have hbit := congrArg (·.getLsbD (n % 8)) (h (n / 8) (by omega))
  have hmod : n % 8 < 8 := Nat.mod_lt n (by decide)
  simpa only [getLsbD_wordByte, Nat.div_add_mod, hmod, decide_true, Bool.true_and] using hbit

theorem wordByte_entropyWord (entropy : Byte) {i : Nat} (hi : i < 4) : wordByte (entropyWord entropy) i = entropy := by
  refine BitVec.eq_of_getLsbD_eq fun j hj => ?_
  rw [getLsbD_wordByte, entropyWord]
  simp only [BitVec.getLsbD_append]
  interval_cases i <;> grind

/-- Byte 0 of a register value shifted left by one: a 0 enters. -/
theorem wordByte_shiftLeft_one_zero (r : Word32) :
    wordByte (r <<< 1) 0 = (wordByte r 0).extractLsb' 0 7 ++ 0#1 := by
  refine BitVec.eq_of_getLsbD_eq fun j hj => ?_
  rw [getLsbD_wordByte, BitVec.getLsbD_append, BitVec.getLsbD_shiftLeft]
  cases j with
  | zero => simp
  | succ j => simp [show j < 7 by omega, show j < 8 by omega, hj, show j + 1 < 32 by omega]

/-- A higher byte of a register value shifted left by one: the top bit of the byte below enters. -/
theorem wordByte_shiftLeft_one_succ (r : Word32) {i : Nat} (hi : i < 3) :
    wordByte (r <<< 1) (i + 1) = (wordByte r (i + 1)).extractLsb' 0 7 ++ (wordByte r i).extractLsb' 7 1 := by
  refine BitVec.eq_of_getLsbD_eq fun j hj => ?_
  rw [getLsbD_wordByte, BitVec.getLsbD_append, BitVec.getLsbD_shiftLeft]
  cases j with
  | zero =>
    have hbelow : 8 * (i + 1) - 1 = 8 * i + 7 := by omega
    simp [hbelow, show 8 * (i + 1) < 32 by omega]
  | succ j =>
    have hbelow : 8 * (i + 1) + (j + 1) - 1 = 8 * (i + 1) + j := by omega
    simp [hbelow, show j < 7 by omega, show j < 8 by omega, hj, show 8 * (i + 1) + (j + 1) < 32 by omega]

/-- The shift and the feedback of a pump, byte by byte; the feedback bit is the top bit of byte 3. -/
theorem wordByte_pump (fb r : Word32) (i : Nat) : wordByte (pump fb r) i =
    wordByte (r <<< 1) i ^^^ (if (wordByte r 3).getLsbD 7 then wordByte fb i else 0x00) := by
  have htop : (wordByte r 3).getLsbD 7 = r.getLsbD 31 := getLsbD_wordByte r 3 7
  rw [htop, pump]
  split
  · exact wordByte_xor _ _ i
  · exact BitVec.xor_zero.symm

theorem wordByte_pump_zero (fb r : Word32) : wordByte (pump fb r) 0 = ((wordByte r 0).extractLsb' 0 7 ++ 0#1) ^^^
    (if (wordByte r 3).getLsbD 7 then wordByte fb 0 else 0x00) := by
  rw [wordByte_pump, wordByte_shiftLeft_one_zero]

theorem wordByte_pump_succ (fb r : Word32) {i : Nat} (hi : i < 3) : wordByte (pump fb r) (i + 1) =
    ((wordByte r (i + 1)).extractLsb' 0 7 ++ (wordByte r i).extractLsb' 7 1) ^^^
      (if (wordByte r 3).getLsbD 7 then wordByte fb (i + 1) else 0x00) := by
  rw [wordByte_pump, wordByte_shiftLeft_one_succ r hi]

/-- Settles O33. -/
theorem pumpByteByByte : Obligations.PumpByteByByte := fun fb r =>
  ⟨wordByte_pump_succ fb r (i := 2) (by decide), wordByte_pump_succ fb r (i := 1) (by decide),
    wordByte_pump_succ fb r (i := 0) (by decide), wordByte_pump_zero fb r⟩

/-! ### The pump as a map of register values (R132 to R135) -/

theorem pump_bijective {fb : Word32} (h : fb.getLsbD 0 = true) : Function.Bijective (pump fb) :=
  have : Finite Word32 := Finite.of_injective BitVec.toFin fun _ _ => BitVec.eq_of_toFin_eq
  (Laws.pump_injective h).bijective_of_finite

/-- Shifting `0b1 : FB[31:1]` left gives `FB` again where `FB[0] = 0` (R135). -/
theorem shiftLeft_one_append_feedback {fb : Word32} (h : fb.getLsbD 0 = false) :
    (1#1 ++ fb.extractLsb' 1 31 : Word32) <<< 1 = fb := by
  refine BitVec.eq_of_getLsbD_eq fun i hi => ?_
  rw [BitVec.getLsbD_shiftLeft, BitVec.getLsbD_append]
  cases i with
  | zero => simpa using h.symm
  | succ i => simp [show i < 31 by omega, show i + 1 < 32 by omega, Nat.add_comm 1 i]

/-- Settles O34. -/
theorem pumpIsABijectionThatFixesZero : Obligations.PumpIsABijectionThatFixesZero := by
  refine ⟨fun fb h => ⟨pump_bijective h, fun r => Laws.pump_ne_zero h⟩, fun fb => pumpTimes_zero fb 1, fun fb h => ?_⟩
  have htop : (1#1 ++ fb.extractLsb' 1 31 : Word32).getLsbD 31 = true := by
    rw [BitVec.getLsbD_append]; rfl
  rw [pump, if_pos htop, shiftLeft_one_append_feedback h, BitVec.xor_self]
  rfl

/-! ### `rng_pump` and `rng_add_entropy` (R130, R136 to R138) -/

/-- Settles O32. -/
theorem rngPumpIsOneLfsrStep : Obligations.RngPumpIsOneLfsrStep := fun s => exec_rngPump s

/-- Settles O35: XOR with the entropy word is XOR with the byte in each byte. -/
theorem rngAddEntropyDiffusesTheByte : Obligations.RngAddEntropyDiffusesTheByte := by
  intro e s
  refine ⟨s.lfsr ^^^ entropyWord e, fun i hi => ?_, exec_rngAddEntropy e s⟩
  rw [wordByte_xor, wordByte_entropyWord e hi]

theorem xor_entropyWord_eq_zero_iff {e : Byte} {r : Word32} :
    r ^^^ entropyWord e = 0 ↔ ∀ i, i < 4 → wordByte r i = e := by
  rw [show (0 : Word32) = 0#32 from rfl, BitVec.xor_eq_zero_iff, eq_iff_wordByte_eq]
  exact forall₂_congr fun i hi => by rw [wordByte_entropyWord e hi]

/-- The first pump after the zero correction yields `FB` (R138). -/
theorem pump_zeroCorrection_zero (fb : Word32) : pump fb (zeroCorrection 0) = fb :=
  BitVec.zero_xor

/-- Settles O36. -/
theorem zeroCorrectionHappensOnEqualBytes : Obligations.ZeroCorrectionHappensOnEqualBytes := by
  intro e s
  refine ⟨xor_entropyWord_eq_zero_iff, fun hbytes => ⟨_, exec_rngAddEntropy e s, ?_⟩⟩
  have hzero : s.lfsr ^^^ entropyWord e = 0 := xor_entropyWord_eq_zero_iff.mpr hbytes
  rw [State.answer_lfsr, State.setLfsr_lfsr, hzero, pumpTimes, pump_zeroCorrection_zero]

/-! ### The mask (R142) -/

/-- `Mask(m)` is `2^k - 1` for the least `k` that makes it at least `m`. -/
theorem rejectionMask_spec (m : Byte) : ∃ k, k ≤ 8 ∧ (rejectionMask m).toNat = 2 ^ k - 1 ∧
    m.toNat ≤ 2 ^ k - 1 ∧ ∀ j, j < k → 2 ^ j - 1 < m.toNat := by
  cases hk : (List.range 9).find? fun k => decide (m.toNat ≤ 2 ^ k - 1) with
  | none =>
    have hlt := m.isLt
    have hgreater := List.find?_eq_none.mp hk 8 (by decide)
    exact absurd (decide_eq_true (by omega)) hgreater
  | some k =>
    obtain ⟨hle, hmem, hless⟩ := List.find?_range_eq_some.mp hk
    have hk8 : k ≤ 8 := by have := List.mem_range.mp hmem; omega
    have hpow : 2 ^ k ≤ 2 ^ 8 := Nat.pow_le_pow_right (by decide) hk8
    refine ⟨k, hk8, ?_, by simpa using hle, fun j hj => by simpa using hless j hj⟩
    rw [rejectionMask, hk]
    exact (BitVec.toNat_ofNat _ 8).trans (Nat.mod_eq_of_lt (by omega))

theorem le_rejectionMask (m : Byte) : m.toNat ≤ (rejectionMask m).toNat := by
  obtain ⟨k, -, hmask, hle, -⟩ := rejectionMask_spec m
  exact hmask ▸ hle

theorem rejectionMask_le {m : Byte} {k : Nat} (h : m.toNat ≤ 2 ^ k - 1) : (rejectionMask m).toNat ≤ 2 ^ k - 1 := by
  obtain ⟨k', -, hmask, -, hless⟩ := rejectionMask_spec m
  have hk : k' ≤ k := by
    by_contra hlt
    have := hless k (by omega)
    omega
  have := Nat.pow_le_pow_right (n := 2) (by decide) hk
  omega

/-- A maximum of the form `2^k - 1` is its own mask. -/
theorem rejectionMask_of_allOnes {m : Byte} {k : Nat} (h : m.toNat = 2 ^ k - 1) : rejectionMask m = m :=
  BitVec.eq_of_toNat_eq (Nat.le_antisymm (h ▸ rejectionMask_le h.le) (le_rejectionMask m))

/-- Settles O41. With the mask `2^(k+1) - 1` the least such, `m` is above `2^k - 1`, so at least half of the `2^(k+1)`
candidates are below `m` and `m` itself is accepted too. -/
theorem maskIsTheSmallestAllOnes : Obligations.MaskIsTheSmallestAllOnes := by
  intro m hm
  obtain ⟨k, hk8, hmask, hle, hless⟩ := rejectionMask_spec m
  obtain ⟨k, rfl⟩ : ∃ k', k = k' + 1 := Nat.exists_eq_succ_of_ne_zero fun h0 => by subst h0; omega
  refine ⟨⟨k + 1, by omega, hk8, hmask⟩, le_rejectionMask m, fun _ => rejectionMask_le, ?_⟩
  have hhalf := hless k (by omega)
  rw [hmask, Nat.pow_succ]
  rw [Nat.pow_succ] at hle
  omega

/-! ### The register comes back (R132, R133) -/

/-- Every register value comes back within `2^32 - 1` pumps: among one pump count more than there are non-zero values
two lead to the same value, and the pump is injective. -/
theorem exists_period {fb : Word32} (hfb : fb.getLsbD 0 = true) (r : Word32) :
    ∃ p, 1 ≤ p ∧ p ≤ 2 ^ 32 - 1 ∧ pumpTimes fb p r = r := by
  by_cases hr : r = 0
  · exact ⟨1, le_rfl, by decide, hr ▸ pumpTimes_zero fb 1⟩
  have hmaps : Set.MapsTo (fun i => (pumpTimes fb i r).toNat) (Finset.range registerValues)
      (Finset.Icc 1 (2 ^ 32 - 1)) := by
    intro i _
    have hlt := (pumpTimes fb i r).isLt
    have hne := BitVec.toNat_ne.mp (Laws.pumpTimes_ne_zero hfb hr i)
    rw [Finset.mem_coe, Finset.mem_Icc]
    exact ⟨Nat.one_le_iff_ne_zero.mpr hne, Nat.le_sub_one_of_lt hlt⟩
  have hcard : (Finset.Icc 1 (2 ^ 32 - 1)).card < (Finset.range registerValues).card := by
    rw [Nat.card_Icc, Finset.card_range]
    decide
  obtain ⟨a, ha, b, hb, hne, hab⟩ := Finset.exists_ne_map_eq_of_card_lt_of_maps_to hcard hmaps
  have hval : pumpTimes fb a r = pumpTimes fb b r := BitVec.eq_of_toNat_eq hab
  rw [Finset.mem_range, registerValues] at ha hb
  wlog hlt : a < b generalizing a b
  · exact this b hb a ha hne.symm hab.symm hval.symm (by omega)
  refine ⟨b - a, by omega, by omega, Laws.pumpTimes_injective hfb a ?_⟩
  rw [← pumpTimes_add, Nat.add_sub_cancel' hlt.le, hval]

/-- What any number of pumps, at least one, makes of the register, at most `2^32 - 1` pumps make of it. -/
theorem exists_early_pumpTimes_eq {fb : Word32} (hfb : fb.getLsbD 0 = true) (r : Word32) {j : Nat} (hj : 1 ≤ j) :
    ∃ i, 1 ≤ i ∧ i ≤ 2 ^ 32 - 1 ∧ pumpTimes fb i r = pumpTimes fb j r := by
  obtain ⟨p, hp, hple, hperiod⟩ := exists_period hfb r
  have hmod : (j - 1) % p < p := Nat.mod_lt _ hp
  have hsplit : j = ((j - 1) % p + 1) + p * ((j - 1) / p) := by
    have := Nat.mod_add_div (j - 1) p
    omega
  refine ⟨(j - 1) % p + 1, by omega, by omega, ?_⟩
  conv_rhs => rw [hsplit, pumpTimes_add, Laws.pumpTimes_mul_fixed hperiod]

/-! ### `rng_get` (R140 to R145) -/

/-- The candidate that `rng_get` takes after `j` pumps. -/
def State.candidateAfter (s : State) (m : Byte) (j : Nat) : Byte :=
  candidate m (pumpTimes s.params.feedback j s.lfsr)

theorem accepts_eq_true_iff {c m : Byte} : accepts c m = true ↔ c ≤ m := decide_eq_true_iff

theorem accepts_eq_false_iff {c m : Byte} : accepts c m = false ↔ m < c :=
  decide_eq_false_iff_not.trans BitVec.not_le

/-- A candidate is rejected for ever when it is rejected over one round of the register. -/
theorem candidateAfter_rejected {s : State} {m : Byte}
    (h : ∀ i, 1 ≤ i → i ≤ 2 ^ 32 - 1 → m < s.candidateAfter m i) {j : Nat} (hj : 1 ≤ j) : m < s.candidateAfter m j := by
  obtain ⟨i, hi, hile, heq⟩ := exists_early_pumpTimes_eq (feedback_bit_zero s.params) s.lfsr hj
  have hrejected := h i hi hile
  rwa [State.candidateAfter, heq] at hrejected

/-- All that `rng_get` can do, the loop's fuel gone: it completes with the first accepted candidate, which stands within
one round of the register, or it hangs because no candidate is ever accepted. -/
theorem exec_rngGet_cases (m : Byte) (s : State) :
    (∃ j, 1 ≤ j ∧ j ≤ 2 ^ 32 - 1 ∧ s.candidateAfter m j ≤ m ∧ (∀ i, 1 ≤ i → i < j → m < s.candidateAfter m i) ∧
      exec (.rngGet m) s =
        .next ((s.setLfsr (pumpTimes s.params.feedback j s.lfsr)).answer (s.candidateAfter m j))) ∨
    ((∀ j, 1 ≤ j → m < s.candidateAfter m j) ∧ exec (.rngGet m) s = .fault .rngGetNeverReturns) := by
  rw [exec_rngGet]
  obtain ⟨j, hj, -, haccepted, hrejected, hnext⟩ | ⟨-, hrejected, hhang⟩ := execRngGet_cases m s
  · have hle : s.candidateAfter m j ≤ m := accepts_eq_true_iff.mp haccepted
    have hbefore (i : Nat) (hi : 1 ≤ i) (hij : i < j) : m < s.candidateAfter m i :=
      accepts_eq_false_iff.mp (hrejected i hi hij)
    refine .inl ⟨j, hj, ?_, hle, hbefore, hnext⟩
    by_contra hlate
    have hnever := candidateAfter_rejected (fun i hi hile => hbefore i hi (by omega)) hj
    exact BitVec.not_le.mpr hnever hle
  · refine .inr ⟨fun j => candidateAfter_rejected fun i hi hile => ?_, hhang⟩
    exact accepts_eq_false_iff.mp (hrejected i hi (by rw [registerValues]; omega))

theorem exec_rngGet_of_first_accepted {m : Byte} {s : State} {j : Nat} (hj : 1 ≤ j)
    (hrejected : ∀ i, 1 ≤ i → i < j → m < s.candidateAfter m i) (haccepted : s.candidateAfter m j ≤ m) :
    exec (.rngGet m) s =
      .next ((s.setLfsr (pumpTimes s.params.feedback j s.lfsr)).answer (s.candidateAfter m j)) := by
  obtain ⟨j', hj', -, haccepted', hrejected', hnext⟩ | ⟨hnever, -⟩ := exec_rngGet_cases m s
  · have hsame : j' = j := by
      rcases Nat.lt_trichotomy j' j with hlt | heq | hlt
      · exact absurd haccepted' (BitVec.not_le.mpr (hrejected j' hj' hlt))
      · exact heq
      · exact absurd haccepted (BitVec.not_le.mpr (hrejected' j hj hlt))
    exact hsame ▸ hnext
  · exact absurd haccepted (BitVec.not_le.mpr (hnever j hj))

/-- Settles O38. -/
theorem rngGetReturnsTheFirstAcceptedCandidate : Obligations.RngGetReturnsTheFirstAcceptedCandidate := by
  intro m s j hj hrejected haccepted
  exact exec_rngGet_of_first_accepted hj hrejected haccepted

/-- Settles O39. -/
theorem rngGetHangsOnlyWhereNothingIsAccepted : Obligations.RngGetHangsOnlyWhereNothingIsAccepted := by
  intro m s
  obtain ⟨j, hj, -, haccepted, -, hnext⟩ | ⟨hnever, hhang⟩ := exec_rngGet_cases m s
  · refine ⟨fun hhang => ?_, fun hnever => absurd haccepted (BitVec.not_le.mpr (hnever j hj))⟩
    cases hnext.symm.trans hhang
  · exact ⟨fun _ => hnever, fun _ => hhang⟩

/-- Settles O37. -/
theorem rngGetOfZeroPumpsOnce : Obligations.RngGetOfZeroPumpsOnce := by
  intro s
  rw [exec_rngGet, execRngGet, if_pos rfl]
  rfl

/-- Settles O40. -/
theorem rngGetStaysInRange : Obligations.RngGetStaysInRange := by
  refine ⟨fun m s t h => ?_, fun s => ⟨_, rngGetOfZeroPumpsOnce s, rfl⟩⟩
  obtain ⟨j, -, -, haccepted, -, hnext⟩ | ⟨-, hhang⟩ := exec_rngGet_cases m s
  · obtain rfl := Host.Outcome.next.inj (hnext.symm.trans h)
    exact ⟨_, rfl, haccepted⟩
  · cases hhang.symm.trans h

/-- Settles O42: such a maximum is its own mask, so no candidate exceeds it. -/
theorem allOnesMaximaAcceptAtOnce : Obligations.AllOnesMaximaAcceptAtOnce := by
  intro k m s hm
  have hcandidate : s.candidateAfter m 1 = topByte (pump s.params.feedback s.lfsr) &&& m :=
    congrArg (topByte (pump s.params.feedback s.lfsr) &&& ·) (rejectionMask_of_allOnes hm)
  have haccepted : s.candidateAfter m 1 ≤ m := by
    rw [hcandidate, BitVec.le_def, BitVec.toNat_and]
    exact Nat.and_le_right
  rw [exec_rngGet_of_first_accepted le_rfl (fun i hi hlt => by omega) haccepted, hcandidate]
  rfl

/-- A register whose top byte is 0 gives the candidate 0, which every maximum accepts. -/
theorem candidate_le_of_topByte_eq_zero {m : Byte} {r : Word32} (h : topByte r = 0) : candidate m r ≤ m := by
  have h0 : candidate m r = 0#8 := by rw [candidate, h]; exact BitVec.zero_and
  exact h0 ▸ Nat.zero_le m.toNat

/-- Under maximal length some candidate is accepted: the register stays 0, or comes to 1, and both have the top byte 0
(R144). -/
theorem exists_accepted_of_maximalLength {s : State} (h : FbMaximalLength s.params) (m : Byte) :
    ∃ j, 1 ≤ j ∧ s.candidateAfter m j ≤ m := by
  by_cases hs : s.lfsr = 0
  · refine ⟨1, le_rfl, candidate_le_of_topByte_eq_zero ?_⟩
    rw [hs, pumpTimes_zero]
    rfl
  · have hpump := Laws.pump_ne_zero (feedback_bit_zero s.params) hs
    obtain ⟨n, hn⟩ := h _ 1 hpump (by decide)
    refine ⟨n + 1, by omega, candidate_le_of_topByte_eq_zero ?_⟩
    rw [pumpTimes, hn]
    rfl

/-- Settles O43. -/
theorem rngGetReturnsUnderMaximalLength : Obligations.RngGetReturnsUnderMaximalLength := by
  intro m s hmax
  obtain ⟨j, hj, hle, -, -, hnext⟩ | ⟨hnever, -⟩ := exec_rngGet_cases m s
  · exact ⟨j, _, hj, hle, hnext, rfl⟩
  · obtain ⟨i, hi, haccepted⟩ := exists_accepted_of_maximalLength hmax m
    exact absurd haccepted (BitVec.not_le.mpr (hnever i hi))

end Sys2Proof.Machine

namespace Sys2Proof.Machine

/-! ### The Fade Controller's `adjust` (R172, R173) -/

/-- `adjust` in numbers: up by the rate but not above the target, down by the rate but not below it (R172). -/
theorem FadeState.adjust_toNat (f : FadeState) (p : Byte) :
    (f.adjust p).toNat =
      if p.toNat ≤ f.target.toNat then min f.target.toNat (p.toNat + f.rate.toNat)
      else max f.target.toNat (p.toNat - f.rate.toNat) := by
  unfold FadeState.adjust
  by_cases heq : p = f.target
  · simp [heq]
  · rw [if_neg heq]
    by_cases hdown : f.target < p
    · have hlt := BitVec.lt_def.mp hdown
      have hsub := BitVec.toNat_sub_of_le (BitVec.le_of_lt hdown)
      rw [if_pos hdown, if_neg (Nat.not_le.mpr hlt)]
      simp only [BitVec.le_def, hsub]
      split
      · omega
      · rw [BitVec.toNat_sub_of_le (BitVec.le_def.mpr (by omega))]
        omega
    · have hle := BitVec.not_lt.mp hdown
      rw [if_neg hdown, if_pos (BitVec.le_def.mp hle)]
      split <;> bv_omega

theorem FadeState.adjust_target (f : FadeState) : f.adjust f.target = f.target := if_pos rfl

/-- Settles O44: each clause is arithmetic on the one equation for `adjust`. -/
theorem fadeAdjustConverges : Obligations.FadeAdjustConverges := by
  intro f p
  have hadjust := f.adjust_toNat p
  refine ⟨f.adjust_target, ?_, fun hup => ?_, fun hdown => ?_⟩
  · split at hadjust <;> omega
  · rw [BitVec.le_def] at hup
    rw [if_pos hup] at hadjust
    rw [BitVec.le_def, BitVec.le_def]
    omega
  · rw [BitVec.le_def] at hdown
    rw [BitVec.le_def, BitVec.le_def]
    split at hadjust <;> omega

/-! ### The ring of the Twinkle Controller (R181, R182) -/

/-- The complement of a difference is one less than the arc the other way round (R181, 90_conflicts.md C3). -/
theorem circularDistance_toNat (a b : Byte) :
    (circularDistance a b).toNat = if (a - b).toNat < 128 then (a - b).toNat else 255 - (a - b).toNat := by
  simp only [circularDistance, BitVec.msb_eq_decide, decide_eq_true_eq]
  by_cases h : (a - b).toNat < 128
  · rw [if_neg (by omega), if_pos h]
  · rw [if_pos (by omega), if_neg h, BitVec.toNat_not]

/-- The two arcs between two points of the ring add up to it. -/
theorem toNat_sub_swap (a b : Byte) : (b - a).toNat = (256 - (a - b).toNat) % 256 := by
  bv_omega

/-- Settles O46: with the two arcs adding up to the ring, each clause is arithmetic on the one arc. -/
theorem circularDistanceIsTheShorterArcWithinOne : Obligations.CircularDistanceIsTheShorterArcWithinOne := by
  intro a b
  have hab := circularDistance_toNat a b
  have hba := circularDistance_toNat b a
  have harc := toNat_sub_swap a b
  have hlt := (a - b).isLt
  generalize (a - b).toNat = arc at *
  generalize (b - a).toNat = back at *
  refine ⟨?_, ?_, ?_, ?_⟩ <;> split at hab <;> split at hba <;> omega

theorem twinkleDuty_of_le {d b : Byte} (h : b ≤ d) : twinkleDuty d b = 0 := if_pos (BitVec.le_def.mp h)

theorem twinkleDuty_of_near {d b : Byte} (h : d < b) (hnear : d.toNat * 2 < b.toNat) : twinkleDuty d b = 255 := by
  have hlt := BitVec.lt_def.mp h
  simp only [twinkleDuty]
  rw [if_neg (by omega), if_pos hnear]

/-- On the falloff the quotient of R182 is at most 255. -/
theorem falloff_le {d b : Nat} (hlt : d < b) : 256 * 2 * (d - b / 2) / b ≤ 255 := by
  have hquot : 256 * 2 * (d - b / 2) / b < 256 := Nat.div_lt_of_lt_mul (by omega)
  omega

/-- On the falloff neither the subtraction nor the byte loses anything (R182). -/
theorem twinkleDuty_falloff {d b : Byte} (h : d < b) (hfar : b.toNat ≤ d.toNat * 2) :
    ((twinkleDuty d b).toNat : Int) = 255 - (256 * 2 * ((d.toNat : Int) - b.toNat / 2)) / b.toNat := by
  have hlt := BitVec.lt_def.mp h
  have hle := falloff_le hlt
  have hduty : (twinkleDuty d b).toNat = 255 - 256 * 2 * (d.toNat - b.toNat / 2) / b.toNat := by
    simp only [twinkleDuty]
    rw [if_neg (by omega), if_neg (by omega), BitVec.toNat_ofNat,
      Nat.mod_eq_of_lt (Nat.lt_succ_of_le (Nat.sub_le _ _))]
  rw [hduty]
  push_cast [hle, show b.toNat / 2 ≤ d.toNat by omega]
  rfl

/-- Settles O47: the three branches, and the two extremes as cases of them. -/
theorem twinkleDutyFormula : Obligations.TwinkleDutyFormula := by
  intro d b hd
  have hfull : d < 255#8 := BitVec.lt_def.mpr (show d.toNat < 255 by omega)
  exact ⟨twinkleDuty_of_near hfull (show d.toNat * 2 < 255 by omega), twinkleDuty_of_le (Nat.zero_le _),
    twinkleDuty_of_le, twinkleDuty_of_near, twinkleDuty_falloff⟩

/-! ### The aggregated wake (R161) -/

theorem aggregateWakes_cons (w : Byte) (rest : List Byte) :
    (aggregateWakes (w :: rest)).toNat = min w.toNat (aggregateWakes rest).toNat := by
  rw [aggregateWakes]
  split <;> bv_omega

theorem aggregateWakes_le {w : Byte} {requests : List Byte} (h : w ∈ requests) :
    (aggregateWakes requests).toNat ≤ w.toNat := by
  induction requests with
  | nil => cases h
  | cons x rest ih =>
    rw [aggregateWakes_cons]
    obtain rfl | hrest := List.mem_cons.mp h
    · exact min_le_left _ _
    · exact (min_le_right _ _).trans (ih hrest)

theorem aggregateWakes_mem_or_idle (requests : List Byte) :
    aggregateWakes requests ∈ requests ∨ aggregateWakes requests = Config.idle := by
  induction requests with
  | nil => exact .inr rfl
  | cons x rest ih =>
    rw [aggregateWakes]
    split
    · exact .inl List.mem_cons_self
    · exact ih.imp_left (List.mem_cons_of_mem x)

/-- Settles O48: SHUTDOWN is the least byte, so the bound makes the aggregate SHUTDOWN where it is requested. -/
theorem aggregatedWakeIsTheMinimum : Obligations.AggregatedWakeIsTheMinimum :=
  fun requests => ⟨fun _ hw => aggregateWakes_le hw, aggregateWakes_mem_or_idle requests,
    fun hshutdown => BitVec.eq_of_toNat_eq (Nat.le_zero.mp (aggregateWakes_le hshutdown))⟩

end Sys2Proof.Machine

namespace Sys2Proof.Machine

/-! ### A sequence of duty writes (R22, R100) -/

theorem State.SameButDuties.refl (s : State) : s.SameButDuties s := ⟨rfl, rfl, rfl, rfl, rfl, rfl⟩

theorem State.SameButDuties.trans {s t u : State} (hst : s.SameButDuties t) (htu : t.SameButDuties u) :
    s.SameButDuties u where
  tick := htu.tick.trans hst.tick
  pin := htu.pin.trans hst.pin
  phase := htu.phase.trans hst.phase
  lfsr := htu.lfsr.trans hst.lfsr
  params := htu.params.trans hst.params
  inbox := htu.inbox.trans hst.inbox

theorem sameButDuties_channelWrite_answer (s : State) (c : Nat) (v r : Byte) :
    s.SameButDuties ((s.channelWrite c v).answer r) := ⟨rfl, rfl, rfl, rfl, rfl, rfl⟩

/-- `t` is `s` after these (channel, duty) pairs were written: the backed channels among them read the duty written,
every other index reads as before, and the rest of the block is as it was. -/
structure State.DutiesWritten (s t : State) (writes : List (Byte × Byte)) : Prop where
  written : ∀ w ∈ writes, w.1.toNat < s.params.numChannels → t.channelRead w.1.toNat = w.2
  others : ∀ n : Nat, (∀ w ∈ writes, w.1.toNat ≠ n) → t.channelRead n = s.channelRead n
  same : s.SameButDuties t

theorem dutiesWritten_nil (s : State) : s.DutiesWritten s [] where
  written := by simp
  others _ _ := rfl
  same := .refl s

/-- A first write to a channel that is not written again. -/
theorem State.DutiesWritten.cons {s t : State} {ch d r : Byte} {writes : List (Byte × Byte)}
    (hch : ch ∉ writes.map Prod.fst)
    (h : ((s.channelWrite (channelIndex ch) d).answer r).DutiesWritten t writes) :
    s.DutiesWritten t ((ch, d) :: writes) where
  written := by
    intro w hw hbacked
    obtain rfl | hrest := List.mem_cons.mp hw
    · have hlater : ∀ w ∈ writes, w.1.toNat ≠ ch.toNat := fun w hw heq =>
        hch (BitVec.eq_of_toNat_eq heq ▸ List.mem_map_of_mem hw)
      rw [h.others _ hlater, channelRead_answer, channelRead_channelWrite, if_pos ⟨rfl, hbacked⟩]
    · exact h.written w hrest hbacked
  others := by
    intro n hn
    obtain ⟨hne, hrest⟩ := List.forall_mem_cons.mp hn
    rw [h.others n hrest, channelRead_answer, channelRead_channelWrite, if_neg fun hand => hne hand.1.symm]
  same := (sameButDuties_channelWrite_answer s _ d r).trans h.same

/-- The `pwm_set` commands of some writes complete, and do them. -/
theorem run_issueAll_pwmSet {writes : List (Byte × Byte)} (hnodup : (writes.map Prod.fst).Nodup) (s : State) :
    ∃ t, (Client.issueAll (writes.map fun w => .pwmSet w.1 w.2)).run s = .next ((), t) ∧
      s.DutiesWritten t writes := by
  induction writes generalizing s with
  | nil => exact ⟨s, rfl, dutiesWritten_nil s⟩
  | cons w rest ih =>
    obtain ⟨hw, hrest⟩ := List.nodup_cons.mp hnodup
    obtain ⟨t, hrun, ht⟩ := ih hrest ((s.channelWrite (channelIndex w.1) w.2).answer noResult)
    exact ⟨t, hrun, ht.cons hw⟩

/-- The same written by one function of the channel: what its clauses say in terms of the channels. -/
theorem State.DutiesWritten.of_map {s t : State} {channels : List Byte} {duty : Byte → Byte}
    (h : s.DutiesWritten t (channels.map fun c => (c, duty c))) :
    (∀ c ∈ channels, c.toNat < s.params.numChannels → t.channelRead c.toNat = duty c) ∧
    (∀ n : Nat, (∀ c ∈ channels, c.toNat ≠ n) → t.channelRead n = s.channelRead n) :=
  ⟨fun _ hc => h.written _ (List.mem_map_of_mem hc), fun n hn => h.others n (by simpa using hn)⟩

/-! ### The Fade Controller's round and task (R172, R174, R175) -/

/-- What a round writes: every configured channel's duty, adjusted (R175). -/
def FadeState.roundWrites (f : FadeState) (s : State) (channels : List Byte) : List (Byte × Byte) :=
  channels.map fun c => (c, f.adjust (s.channelRead c.toNat))

theorem FadeState.roundWrites_fst (f : FadeState) (s : State) (channels : List Byte) :
    (f.roundWrites s channels).map Prod.fst = channels := by
  simp [FadeState.roundWrites, Function.comp_def]

/-- The block after one channel's duty was read, adjusted and written back. -/
def FadeState.adjustChannel (f : FadeState) (c : Byte) (s : State) : State :=
  (s.channelWrite (channelIndex c) (f.adjust (s.channelRead c.toNat))).answer noResult

/-- A round adjusts its first channel, and goes on with the others. -/
theorem FadeState.run_round_cons (f : FadeState) (c : Byte) (rest : List Byte) (s : State) :
    (f.round (c :: rest)).run s = ((f.round rest).map fun changed =>
      f.adjust (s.channelRead c.toNat) != s.channelRead c.toNat || changed).run (f.adjustChannel c s) := rfl

theorem FadeState.adjustChannel_channelRead (f : FadeState) {c x : Byte} (hne : x ≠ c) (s : State) :
    (f.adjustChannel c s).channelRead x.toNat = s.channelRead x.toNat := by
  have hindex : x.toNat ≠ channelIndex c := fun heq => hne (BitVec.eq_of_toNat_eq heq)
  rw [FadeState.adjustChannel, channelRead_answer, channelRead_channelWrite, if_neg fun hand => hindex hand.1]

/-- A round completes, writes the adjusted duties, and answers whether one of them differs from the old. -/
theorem FadeState.run_round (f : FadeState) {channels : List Byte} (hnodup : channels.Nodup) (s : State) :
    ∃ changed t, (f.round channels).run s = .next (changed, t) ∧
      s.DutiesWritten t (f.roundWrites s channels) ∧
      (changed = true ↔ ∃ c ∈ channels, f.adjust (s.channelRead c.toNat) ≠ s.channelRead c.toNat) := by
  induction channels generalizing s with
  | nil => exact ⟨false, s, rfl, dutiesWritten_nil s, by simp⟩
  | cons c rest ih =>
    obtain ⟨hc, hrest⟩ := List.nodup_cons.mp hnodup
    obtain ⟨changed, t, hrun, hwritten, hchanged⟩ := ih hrest (f.adjustChannel c s)
    have hread : ∀ x ∈ rest, (f.adjustChannel c s).channelRead x.toNat = s.channelRead x.toNat :=
      fun x hx => f.adjustChannel_channelRead (ne_of_mem_of_not_mem hx hc) s
    have hwrites : f.roundWrites (f.adjustChannel c s) rest = f.roundWrites s rest :=
      List.map_congr_left fun x hx => by rw [hread x hx]
    have hrestChanged : changed = true ↔
        ∃ x ∈ rest, f.adjust (s.channelRead x.toNat) ≠ s.channelRead x.toNat :=
      hchanged.trans (exists_congr fun x => and_congr_right fun hx => by rw [hread x hx])
    refine ⟨_, t, by rw [FadeState.run_round_cons, Client.run_map, hrun], ?_, by simp [hrestChanged]⟩
    rw [hwrites] at hwritten
    exact hwritten.cons fun hmem => hc (f.roundWrites_fst s rest ▸ hmem)

/-- Settles O45: the writes of a round, channel by channel, and its answer. -/
theorem fadeRoundAdjustsEveryChannel : Obligations.FadeRoundAdjustsEveryChannel := by
  intro f channels s hnodup
  obtain ⟨changed, t, hrun, hwritten, hchanged⟩ := f.run_round hnodup s
  obtain ⟨hadjusted, hothers⟩ := hwritten.of_map
  exact ⟨changed, t, hrun, hadjusted, hothers, hchanged, hwritten.same⟩

/-- A real elapsed time is no sentinel, so the Fade task does not take it for one (R74, R174). -/
theorem FadeState.cycle_of_wellFormed (f : FadeState) (details : FadeDetails) (channels : List Byte) {e : Byte}
    (he : (Instr.pwmCycle e).wellFormed = true) : f.cycle details channels e = f.cycleReal details channels e := by
  simp only [Instr.wellFormed, Bool.and_eq_true, bne_iff_ne] at he
  obtain ⟨hshutdown, hstartup⟩ := he
  exact if_neg (not_or.mpr ⟨hstartup, hshutdown⟩)

/-- With `period = 0` the task writes the target to every configured channel (R174). -/
theorem FadeState.run_cycleReal_snap {f : FadeState} (hperiod : f.period = 0) (details : FadeDetails)
    {channels : List Byte} (hnodup : channels.Nodup) (e : Byte) (s : State) :
    ∃ t, (f.cycleReal details channels e).run s =
        .next ((Config.idle, { f with accumulator := details.accumulatorAfterSnap f e }), t) ∧
      s.DutiesWritten t (channels.map fun c => (c, f.target)) := by
  obtain ⟨t, hrun, ht⟩ := run_issueAll_pwmSet (writes := channels.map fun c => (c, f.target))
    (by simpa [Function.comp_def] using hnodup) s
  have hsnap : f.snap channels = (channels.map fun c => (c, f.target)).map fun w => .pwmSet w.1 w.2 := by
    simp [FadeState.snap, Function.comp_def]
  exact ⟨t, by rw [FadeState.cycleReal, if_pos hperiod, Client.run_map, hsnap, hrun], ht⟩

/-- Below `period` the task only counts the elapsed time (R175). -/
theorem FadeState.cycleReal_below {f : FadeState} (hperiod : f.period ≠ 0) {e : Byte}
    (hbelow : f.accumulator + e.toNat < f.period.toNat) (details : FadeDetails) (channels : List Byte) :
    f.cycleReal details channels e =
      .done (details.wakeBelowPeriod { f with accumulator := f.accumulator + e.toNat },
        { f with accumulator := f.accumulator + e.toNat }) := by
  rw [FadeState.cycleReal, if_neg hperiod]
  exact if_pos hbelow

/-- At `period` the task does a round (R175). -/
theorem FadeState.cycleReal_reached {f : FadeState} (hperiod : f.period ≠ 0) {e : Byte}
    (hreached : f.period.toNat ≤ f.accumulator + e.toNat) (details : FadeDetails) (channels : List Byte) :
    f.cycleReal details channels e = (f.round channels).map fun changed =>
      (f.wakeAfterRound changed, { f with accumulator := details.accumulatorAfterReset f e }) := by
  rw [FadeState.cycleReal, if_neg hperiod]
  exact if_neg (Nat.not_lt.mpr hreached)

/-- Settles O49: the task's three cases, the last one by the law of the round. -/
theorem fadeTaskSnapsWaitsOrAdjusts : Obligations.FadeTaskSnapsWaitsOrAdjusts := by
  intro f details channels e s hnodup he
  rw [FadeState.cycle_of_wellFormed f details channels he]
  refine ⟨fun hperiod => ?_, fun hperiod hbelow => ?_, fun hperiod hreached => ?_⟩
  · obtain ⟨t, hrun, hwritten⟩ := FadeState.run_cycleReal_snap hperiod details hnodup e s
    obtain ⟨htarget, hothers⟩ := hwritten.of_map
    exact ⟨t, hrun, htarget, hothers, hwritten.same⟩
  · rw [FadeState.cycleReal_below hperiod hbelow]
    exact ⟨rfl, rfl⟩
  · obtain ⟨changed, t, hrun, hwritten, hchanged⟩ := f.run_round hnodup s
    obtain ⟨hadjusted, hothers⟩ := hwritten.of_map
    rw [FadeState.cycleReal_reached hperiod hreached, Client.run_map, hrun]
    refine ⟨_, t, rfl, hadjusted, hothers, hwritten.same, fun hsome => if_pos (hchanged.mpr hsome),
      fun hnone => if_neg fun htrue => ?_⟩
    obtain ⟨c, hc, hne⟩ := hchanged.mp htrue
    exact hne (hnone c hc)

/-! ### The Twinkle Controller's setters (R180 to R183) -/

/-- What a recompute writes: every configured channel's duty for its place on the ring (R182, R183). -/
def TwinkleState.refreshWrites (t : TwinkleState) (ring : Ring) : List (Byte × Byte) :=
  ring.channels.map fun c => (c.1, t.dutyAt ring c.2)

/-- A setter completes with the new fields. It writes the recomputed duties, or changes nothing at all, the latter only
where the fields are those held (R183, N35). -/
theorem TwinkleState.run_change (t t' : TwinkleState) {ring : Ring} (hnodup : (ring.channels.map Prod.fst).Nodup)
    (s : State) :
    ∃ u, (t.change t' ring).run s = .next (t', u) ∧
      ((t' = t ∧ u = s) ∨ s.DutiesWritten u (t'.refreshWrites ring)) := by
  unfold TwinkleState.change
  split
  · next hkept => exact ⟨s, by rw [hkept.1, Client.run_done], .inl ⟨hkept.1, rfl⟩⟩
  · obtain ⟨u, hrun, hu⟩ := run_issueAll_pwmSet (writes := t'.refreshWrites ring)
      (by simpa [TwinkleState.refreshWrites, Function.comp_def] using hnodup) s
    have hrefresh : t'.refresh ring = (t'.refreshWrites ring).map fun w => .pwmSet w.1 w.2 := by
      simp [TwinkleState.refresh, TwinkleState.refreshWrites, Function.comp_def]
    exact ⟨u, by rw [Client.run_map, hrefresh, hrun], .inr hu⟩

/-- What a setter does to the block, in terms of the ring's channels. -/
theorem TwinkleState.run_change_effect (t t' : TwinkleState) {ring : Ring}
    (hnodup : (ring.channels.map Prod.fst).Nodup) (s : State) :
    ∃ u, (t.change t' ring).run s = .next (t', u) ∧ s.SameButDuties u ∧
      (∀ n : Nat, (∀ x ∈ ring.channels, x.1.toNat ≠ n) → u.channelRead n = s.channelRead n) ∧
      (t' ≠ t → ∀ x ∈ ring.channels, x.1.toNat < s.params.numChannels →
        u.channelRead x.1.toNat = t'.dutyAt ring x.2) := by
  obtain ⟨u, hrun, ⟨hsame, rfl⟩ | hwritten⟩ := t.run_change t' hnodup s
  · exact ⟨u, hrun, .refl u, fun _ _ => rfl, fun hne => absurd hsame hne⟩
  · exact ⟨u, hrun, hwritten.same,
      fun n hn => hwritten.others n (List.forall_mem_map.mpr hn),
      fun _ x hx => hwritten.written (x.1, t'.dutyAt ring x.2) (List.mem_map_of_mem hx)⟩

/-- Settles O50: both setters are one change of the twinkle state, which differs from the old where the field does. -/
theorem twinkleSettersRecomputeEveryChannel : Obligations.TwinkleSettersRecomputeEveryChannel := by
  intro t ring v s hnodup
  constructor
  · obtain ⟨u, hrun, hsame, hothers, hduties⟩ := t.run_change_effect { t with position := v } hnodup s
    exact ⟨u, hrun, hsame, hothers, fun hne => hduties fun heq => hne (congrArg TwinkleState.position heq).symm⟩
  · obtain ⟨u, hrun, hsame, hothers, hduties⟩ := t.run_change_effect { t with brightness := v } hnodup s
    exact ⟨u, hrun, hsame, hothers, fun hne => hduties fun heq => hne (congrArg TwinkleState.brightness heq).symm⟩

end Sys2Proof.Machine

namespace Sys2Proof.Machine

/-! ### The order of a session's commands (R112, R162) -/

/-- The commands from here on are in the order of R162, where a session stands in this phase: not begun, between its
STARTUP and its SHUTDOWN call, over. -/
def Phase.allows : Phase → List Instr → Bool
  | .pre, commands => sessionLegal commands
  | .run, commands => cyclesThenShutdown (commands.filter Instr.isCycleFamily)
  | .halt, commands => (commands.filter Instr.isCycleFamily).isEmpty

theorem Phase.allows_nil (ph : Phase) : ph.allows [] = true := by
  cases ph <;> rfl

/-- The other commands may stand anywhere. -/
theorem Phase.allows_cons_other {i : Instr} (hi : i.isCycleFamily = false) (ph : Phase) (rest : List Instr) :
    ph.allows (i :: rest) = ph.allows rest := by
  cases ph <;> simp [Phase.allows, sessionLegal, hi]

theorem Phase.allows_cons_startup (ph : Phase) (rest : List Instr) :
    ph.allows (.pwmCycleStartup :: rest) = (decide (ph = .pre) && Phase.run.allows rest) := by
  cases ph <;> rfl

theorem Phase.allows_cons_cycle {e : Byte} (he : (Instr.pwmCycle e).wellFormed = true) (ph : Phase)
    (rest : List Instr) :
    ph.allows (.pwmCycle e :: rest) = (decide (ph = .run) && Phase.run.allows rest) := by
  cases ph with
  | pre => rfl
  | run => exact congrArg (· && Phase.run.allows rest) he
  | halt => rfl

theorem cyclesThenShutdown_shutdown_cons (rest : List Instr) :
    cyclesThenShutdown (.pwmCycleShutdown :: rest) = rest.isEmpty := by
  cases rest <;> rfl

theorem Phase.allows_cons_shutdown (ph : Phase) (rest : List Instr) :
    ph.allows (.pwmCycleShutdown :: rest) = (decide (ph = .run) && Phase.halt.allows rest) := by
  cases ph with
  | pre => rfl
  | run => exact cyclesThenShutdown_shutdown_cons _
  | halt => rfl

/-- The order of R162 follows the protocol of R112 command by command: a command that completes leads to a phase that
allows what follows, one that is refused is out of order, and the one hang is neither. -/
theorem exec_allows_cases {i : Instr} (hi : i.wellFormed = true) (rest : List Instr) (s : State) :
    (∃ t, exec i s = .next t ∧ s.phase.allows (i :: rest) = t.phase.allows rest) ∨
    (∃ f, exec i s = .fault f) ∨
    (∃ r, exec i s = .refused r ∧ s.phase.allows (i :: rest) = false) := by
  by_cases hfamily : i.isCycleFamily = true
  · cases i with
    | pwmCycleStartup =>
      rw [Phase.allows_cons_startup]
      by_cases hp : s.phase = .pre
      · exact .inl ⟨_, exec_pwmCycleStartup_next.mpr ⟨hp, rfl⟩, by simp [hp]⟩
      · exact .inr (.inr ⟨_, exec_pwmCycleStartup_refused hp, by simp [hp]⟩)
    | pwmCycleShutdown =>
      rw [Phase.allows_cons_shutdown]
      by_cases hp : s.phase = .run
      · exact .inl ⟨_, exec_pwmCycleShutdown_next.mpr ⟨hp, rfl⟩, by simp [hp]⟩
      · exact .inr (.inr ⟨_, exec_pwmCycleShutdown_refused hp, by simp [hp]⟩)
    | pwmCycle e =>
      rw [Phase.allows_cons_cycle hi]
      by_cases hp : s.phase = .run
      · exact .inl ⟨_, exec_pwmCycle_next.mpr ⟨hp, rfl⟩, by simp [hp]⟩
      · exact .inr (.inr ⟨_, exec_pwmCycle_refused hp e, by simp [hp]⟩)
    | pwmSet | pwmGet | rngPump | rngAddEntropy | rngGet => cases hfamily
  · have hother : i.isCycleFamily = false := by simpa using hfamily
    obtain ⟨t, hnext, hphase⟩ | ⟨-, hfault⟩ := exec_other_cases hother s
    · exact .inl ⟨t, hnext, by rw [Phase.allows_cons_other hother, hphase]⟩
    · exact .inr (.inl ⟨_, hfault⟩)

/-- From any state: commands its phase allows meet no refusal, commands it does not allow do not run to their end. -/
theorem runInstrs_of_allows {commands : List Instr} (hwf : ∀ i ∈ commands, i.wellFormed = true) (s : State) :
    (s.phase.allows commands = true → ∀ r, runInstrs commands s ≠ .refused r) ∧
    (s.phase.allows commands = false → ∀ t, runInstrs commands s ≠ .next t) := by
  induction commands generalizing s with
  | nil => simp [runInstrs, Phase.allows_nil]
  | cons i rest ih =>
    obtain ⟨hi, hrest⟩ := List.forall_mem_cons.mp hwf
    obtain ⟨t, hexec, horder⟩ | ⟨f, hexec⟩ | ⟨r, hexec, horder⟩ := exec_allows_cases hi rest s
    · simpa only [runInstrs, hexec, horder] using ih hrest t
    · simp [runInstrs, hexec]
    · simp [runInstrs, hexec, horder]

/-- Settles O25: the block comes out of reset in phase PRE, which allows the sequences in the order of R162. -/
theorem legalSessionsAreTheOnesThatRun : Obligations.LegalSessionsAreTheOnesThatRun :=
  fun p _ hwf => runInstrs_of_allows hwf (State.resetWith p)

end Sys2Proof.Machine

namespace Sys2Proof.Machine

/-! ### What a procedure of the host ensures -/

section Ensures

variable {A B : Type}

/-- Run from `s`, the procedure meets no refusal, and where it comes to its end, `post` holds of its answer and of the
state it leaves. A hang (R144) is no end. -/
def Client.Ensures (p : Client A) (s : State) (post : A → State → Prop) : Prop :=
  (∀ r, p.run s ≠ .refused r) ∧ ∀ a t, p.run s = .next (a, t) → post a t

theorem Client.ensures_done {a : A} {s : State} {post : A → State → Prop} (h : post a s) :
    (Client.done a).Ensures s post := by
  simpa [Client.Ensures] using h

theorem Client.Ensures.mono {p : Client A} {s : State} {post post' : A → State → Prop} (h : p.Ensures s post)
    (himp : ∀ a t, post a t → post' a t) : p.Ensures s post' :=
  ⟨h.1, fun a t hrun => himp a t (h.2 a t hrun)⟩

theorem Client.Ensures.bind {p : Client A} {g : A → Client B} {s : State} {mid : A → State → Prop}
    {post : B → State → Prop} (hp : p.Ensures s mid) (hg : ∀ a t, mid a t → (g a).Ensures t post) :
    (p.bind g).Ensures s post := by
  obtain ⟨hrefused, hnext⟩ := hp
  unfold Client.Ensures
  rw [Client.run_bind]
  cases hrun : p.run s with
  | next x => exact hg x.1 x.2 (hnext x.1 x.2 hrun)
  | fault f => simp
  | refused r => exact absurd hrun (hrefused r)

theorem Client.Ensures.map {p : Client A} {g : A → B} {s : State} {post : B → State → Prop}
    (hp : p.Ensures s fun a t => post (g a) t) : (p.map g).Ensures s post :=
  hp.bind fun _ _ h => Client.ensures_done h

/-- A procedure that issues no command of the `pwm_cycle` family keeps the phase and the parameters, and meets no
refusal (R112). -/
theorem Client.ensures_of_issuesOnly {p : Client A} (hp : p.IssuesOnly fun i => !i.isCycleFamily) (s : State) :
    p.Ensures s fun _ t => t.phase = s.phase ∧ t.params = s.params := by
  induction p generalizing s with
  | done a => exact Client.ensures_done ⟨rfl, rfl⟩
  | issue i next ih =>
    obtain ⟨hi, hnext⟩ := hp
    obtain ⟨t, hexec, hphase⟩ | ⟨-, hexec⟩ := exec_other_cases (by simpa using hi) s
    · obtain ⟨-, -, -, hparams, -⟩ := elementsAreWrittenByTheirInstructionsAlone i s t hexec
      unfold Client.Ensures
      rw [Client.run_issue_next hexec, ← hphase, ← hparams]
      exact ih _ (hnext _) t
    · simp [Client.Ensures, Client.run, hexec]

end Ensures

/-! ### The `pwm_cycle`-family commands a procedure issues -/

section CycleTrace

variable {A B : Type}

/-- The `pwm_cycle`-family commands a procedure issues when it is run against the block. -/
def Client.cycleTrace (p : Client A) (s : State) : List Instr := (p.trace s).filter Instr.isCycleFamily

theorem Client.cycleTrace_of_issuesOnly {p : Client A} (hp : p.IssuesOnly fun i => !i.isCycleFamily) (s : State) :
    p.cycleTrace s = [] :=
  List.filter_eq_nil_iff.mpr fun i hi => by simpa using Client.issuesOnly_trace hp s i hi

theorem Client.cycleTrace_map (p : Client A) (g : A → B) (s : State) : (p.map g).cycleTrace s = p.cycleTrace s := by
  rw [Client.cycleTrace, Client.trace_map, Client.cycleTrace]

/-- The second procedure runs where the first has come to its end, and issues nothing elsewhere. -/
theorem Client.cycleTrace_bind_cases (p : Client A) (g : A → Client B) (s : State) :
    (∃ a t, p.run s = .next (a, t) ∧ (p.bind g).run s = (g a).run t ∧
      (p.bind g).cycleTrace s = p.cycleTrace s ++ (g a).cycleTrace t) ∨
    ((∀ x, p.run s ≠ .next x) ∧ (∀ y, (p.bind g).run s ≠ .next y) ∧
      (p.bind g).cycleTrace s = p.cycleTrace s) := by
  simp only [Client.cycleTrace, Client.trace_bind, Client.run_bind]
  cases hrun : p.run s with
  | next x => exact .inl ⟨x.1, x.2, rfl, rfl, List.filter_append ..⟩
  | fault f => exact .inr ⟨by simp, by simp, by simp⟩
  | refused r => exact .inr ⟨by simp, by simp, by simp⟩

/-- The procedure issues one `pwm_cycle`-family command, `i`, or it stops before it gets there. -/
def Client.CyclesOnce (i : Instr) (p : Client A) : Prop :=
  ∀ s, p.cycleTrace s = [i] ∨ (p.cycleTrace s = [] ∧ ∀ x, p.run s ≠ .next x)

theorem Client.CyclesOnce.map {i : Instr} {p : Client A} (hp : p.CyclesOnce i) (g : A → B) :
    (p.map g).CyclesOnce i := by
  intro s
  rw [Client.cycleTrace_map]
  refine (hp s).imp_right fun ⟨hnone, hstop⟩ => ⟨hnone, fun x => ?_⟩
  rw [Client.run_map]
  cases hrun : p.run s with
  | next y => exact absurd hrun (hstop y)
  | fault f => simp
  | refused r => simp

/-- Such a procedure followed by another: its command comes first, and the other's follow where it has come to its
end. -/
theorem Client.CyclesOnce.cycleTrace_bind {i : Instr} {p : Client A} (hp : p.CyclesOnce i) (g : A → Client B)
    (s : State) :
    (p.bind g).cycleTrace s = [] ∨ (p.bind g).cycleTrace s = [i] ∨
      ∃ a t, (p.bind g).cycleTrace s = i :: (g a).cycleTrace t := by
  obtain ⟨a, t, hrun, -, htrace⟩ | ⟨-, -, htrace⟩ := Client.cycleTrace_bind_cases p g s
  · obtain hone | ⟨-, hstop⟩ := hp s
    · exact .inr (.inr ⟨a, t, by rw [htrace, hone]; rfl⟩)
    · exact absurd hrun (hstop _)
  · obtain hone | ⟨hnone, -⟩ := hp s
    · exact .inr (.inl (htrace.trans hone))
    · exact .inl (htrace.trans hnone)

theorem Client.CyclesOnce.bind_after {i : Instr} {p : Client A} {g : A → Client B}
    (hp : p.IssuesOnly fun i => !i.isCycleFamily) (hg : ∀ a, (g a).CyclesOnce i) : (p.bind g).CyclesOnce i := by
  intro s
  have hquiet := Client.cycleTrace_of_issuesOnly hp s
  obtain ⟨a, t, -, hrun, htrace⟩ | ⟨-, hstop, htrace⟩ := Client.cycleTrace_bind_cases p g s
  · rw [htrace, hrun, hquiet]
    exact hg a t
  · exact .inr ⟨htrace.trans hquiet, hstop⟩

theorem Client.CyclesOnce.bind_before {i : Instr} {p : Client A} {g : A → Client B} (hp : p.CyclesOnce i)
    (hg : ∀ a, (g a).IssuesOnly fun i => !i.isCycleFamily) : (p.bind g).CyclesOnce i := by
  intro s
  obtain ⟨a, t, hrun, -, htrace⟩ | ⟨-, hstop, htrace⟩ := Client.cycleTrace_bind_cases p g s
  · rw [htrace, Client.cycleTrace_of_issuesOnly (hg a) t, List.append_nil]
    exact (hp s).imp_right fun ⟨_, hstop⟩ => absurd hrun (hstop _)
  · rw [htrace]
    exact (hp s).imp_right fun ⟨hnone, _⟩ => ⟨hnone, hstop⟩

end CycleTrace

/-! ### The Scheduler's invocations of the PWM Engine (R160 to R162) -/

theorem cycleCommand_startup : cycleCommand Config.startup = .pwmCycleStartup := rfl

theorem cycleCommand_shutdown : cycleCommand Config.shutdown = .pwmCycleShutdown := rfl

/-- A real elapsed time is no sentinel (R74, R164). -/
theorem cycleCommand_realElapsed (e : RealElapsed) : cycleCommand e.1 = .pwmCycle e.1 := by
  obtain ⟨e, he⟩ := e
  simp only [Instr.wellFormed, Bool.and_eq_true, bne_iff_ne] at he
  obtain ⟨hshutdown, hstartup⟩ := he
  rw [cycleCommand, if_neg hstartup, if_neg hshutdown]

theorem cycleCommand_isCycleFamily (elapsed : Byte) : (cycleCommand elapsed).isCycleFamily = true := by
  unfold cycleCommand
  split
  · rfl
  · split <;> rfl

/-- Invoked with `elapsed`, the engine goes from one phase to the other, and asks for at most `L` (R112, R118). The
answer to the SHUTDOWN call is 0x00. -/
def EngineLeads (elapsed : Byte) (ph ph' : Phase) : Prop :=
  ∀ s : State, s.phase = ph → ∃ t w, exec (cycleCommand elapsed) s = .next t ∧ t.phase = ph' ∧
    t.params = s.params ∧ t.result = some w ∧ w.toNat ≤ s.params.cycleLength

theorem wakeByte_nextWake_le {s : State} {k : Nat} (hk : k < s.params.cycleLength) :
    (wakeByte (s.nextWake k)).toNat ≤ s.params.cycleLength := by
  rw [wakeByte_nextWake_of_lt hk]
  exact (Nat.sub_le _ _).trans (nextTick_le s k)

theorem engineLeads_startup : EngineLeads Config.startup .pre .run := fun _ hp =>
  ⟨_, _, exec_pwmCycleStartup_next.mpr ⟨hp, rfl⟩, rfl, rfl, rfl, wakeByte_nextWake_le (cycleLength_pos _)⟩

theorem engineLeads_realElapsed (e : RealElapsed) : EngineLeads e.1 .run .run := by
  intro s hp
  rw [cycleCommand_realElapsed]
  exact ⟨_, _, exec_pwmCycle_next.mpr ⟨hp, rfl⟩, rfl, rfl, rfl, wakeByte_nextWake_le (tickAfter_lt s e.1)⟩

theorem engineLeads_shutdown : EngineLeads Config.shutdown .run .halt := fun _ hp =>
  ⟨_, _, exec_pwmCycleShutdown_next.mpr ⟨hp, rfl⟩, rfl, rfl, rfl, Nat.zero_le _⟩

/-- Where the session loop has come to: asleep in phase RUN for 1 to `L` ms, or ended in phase HALT (R118, R162). -/
def SessionPoint.Reached {E : Type} (cycleLength : Nat) (t : State) : SessionPoint E → Prop
  | .asleep wake _ => t.phase = .run ∧ 1 ≤ wake.toNat ∧ wake.toNat ≤ cycleLength
  | .ended _ => t.phase = .halt

section Scheduler

variable {E : Type} {p : HostProgram E} {before after : List (RegisteredTask E)}
  (htasks : p.tasks = before ++ .engine :: after)
  (hothers : ∀ task ∈ before ++ after, ∀ e h, (p.invoke e h task).IssuesOnly fun i => !i.isCycleFamily)

include hothers

/-- The tasks invoked one after the other with the same operand invoke the engine once. -/
theorem HostProgram.invokeAll_cyclesOnce (elapsed : Byte) (h : HostState E) :
    (p.invokeAll elapsed (before ++ .engine :: after) h).CyclesOnce (cycleCommand elapsed) := by
  obtain ⟨hbefore, hafter⟩ := List.forall_mem_append.mp hothers
  clear hothers
  induction before generalizing h with
  | nil =>
    refine Client.CyclesOnce.bind_before (fun s => .inl ?_) fun x =>
      Client.issuesOnly_map (HostProgram.invokeAll_issuesOnly (fun task ht => hafter task ht elapsed) x.2) _
    simp only [HostProgram.invoke, Client.cycleTrace, Client.trace]
    cases exec (cycleCommand elapsed) s <;> simp [cycleCommand_isCycleFamily]
  | cons task rest ih =>
    obtain ⟨htask, hrest⟩ := List.forall_mem_cons.mp hbefore
    exact Client.CyclesOnce.bind_after (htask elapsed h) fun x => (ih x.2 hrest).map _

/-- The tasks invoked one after the other lead from one phase to the other as the engine does, and one of the wake
requests is the engine's. -/
theorem HostProgram.invokeAll_ensures {elapsed : Byte} {ph ph' : Phase} (hengine : EngineLeads elapsed ph ph')
    (h : HostState E) {s : State} (hs : s.phase = ph) :
    (p.invokeAll elapsed (before ++ .engine :: after) h).Ensures s fun y t =>
      t.phase = ph' ∧ t.params = s.params ∧ ∃ w ∈ y.1, w.toNat ≤ s.params.cycleLength := by
  obtain ⟨hbefore, hafter⟩ := List.forall_mem_append.mp hothers
  clear hothers
  induction before generalizing h s with
  | nil =>
    obtain ⟨t, w, hexec, hphase, hparams, hresult, hwake⟩ := hengine s hs
    refine Client.Ensures.bind (mid := fun x u => u = t ∧ x.1 = w) ?_ ?_
    · simp [HostProgram.invoke, Client.Ensures, Client.run, hexec, hresult]
    · rintro x u ⟨rfl, rfl⟩
      refine Client.Ensures.map (Client.Ensures.mono (Client.ensures_of_issuesOnly
        (HostProgram.invokeAll_issuesOnly (fun task ht => hafter task ht elapsed) x.2) u) ?_)
      rintro y v ⟨hkeptPhase, hkeptParams⟩
      exact ⟨hkeptPhase.trans hphase, hkeptParams.trans hparams, x.1, List.mem_cons_self, hwake⟩
  | cons task rest ih =>
    obtain ⟨htask, hrest⟩ := List.forall_mem_cons.mp hbefore
    refine (Client.ensures_of_issuesOnly (htask elapsed h) s).bind ?_
    rintro x u ⟨hphase, hparams⟩
    refine Client.Ensures.map ((ih x.2 (hphase.trans hs) hrest).mono ?_)
    rintro y t ⟨hphase', hparams', w, hw, hwake⟩
    exact ⟨hphase', hparams'.trans hparams, w, List.mem_cons_of_mem _ hw, hparams ▸ hwake⟩

include htasks

/-- An epoch invokes the engine once (R161). -/
theorem HostProgram.epoch_cyclesOnce (elapsed : Byte) (h : HostState E) :
    (p.epoch elapsed h).CyclesOnce (cycleCommand elapsed) := by
  unfold HostProgram.epoch
  rw [htasks]
  exact (HostProgram.invokeAll_cyclesOnce hothers elapsed h).map _

/-- An epoch leads from one phase to the other as the engine does, and its aggregated wake is at most `L`, since it is
at most the engine's (R118, R161). -/
theorem HostProgram.epoch_ensures {elapsed : Byte} {ph ph' : Phase} (hengine : EngineLeads elapsed ph ph')
    (h : HostState E) {s : State} (hs : s.phase = ph) :
    (p.epoch elapsed h).Ensures s fun x t =>
      t.phase = ph' ∧ t.params = s.params ∧ x.1.toNat ≤ s.params.cycleLength := by
  unfold HostProgram.epoch
  rw [htasks]
  refine Client.Ensures.map ((HostProgram.invokeAll_ensures hothers hengine h hs).mono ?_)
  rintro y t ⟨hphase, hparams, w, hw, hwake⟩
  exact ⟨hphase, hparams, (aggregateWakes_le hw).trans hwake⟩

/-- The loop's last epoch, once the aggregated wake is SHUTDOWN: one SHUTDOWN call, after which nothing is issued. -/
theorem HostProgram.lastEpoch_cycleTrace (h : HostState E) (s : State) :
    cyclesThenShutdown (((p.epoch Config.shutdown h).map fun x => SessionPoint.ended x.2).cycleTrace s) = true := by
  rw [Client.cycleTrace_map]
  obtain hone | ⟨hnone, -⟩ := HostProgram.epoch_cyclesOnce htasks hothers Config.shutdown h s
  · rw [hone]; rfl
  · rw [hnone]; rfl

/-- The session loop issues real elapsed times, then at most one SHUTDOWN call (R162). -/
theorem HostProgram.loop_cycleTrace (elapsed : List RealElapsed) (wake : Byte) (h : HostState E) (s : State) :
    cyclesThenShutdown ((p.loop elapsed wake h).cycleTrace s) = true := by
  induction elapsed generalizing wake h s with
  | nil =>
    unfold HostProgram.loop
    split
    · exact HostProgram.lastEpoch_cycleTrace htasks hothers h s
    · rfl
  | cons e rest ih =>
    unfold HostProgram.loop
    split
    · exact HostProgram.lastEpoch_cycleTrace htasks hothers h s
    · have hepoch := HostProgram.epoch_cyclesOnce htasks hothers e.1 h
      rw [cycleCommand_realElapsed] at hepoch
      obtain htrace | htrace | ⟨x, t, htrace⟩ :=
        hepoch.cycleTrace_bind (fun x => p.loop rest x.1 x.2) s
      · rw [htrace]; rfl
      · rw [htrace, cyclesThenShutdown, e.2]; rfl
      · rw [htrace, cyclesThenShutdown, e.2, ih]; rfl

/-- A session issues one STARTUP call, and then what the loop issues (R162). -/
theorem HostProgram.session_sessionLegal (elapsed : List RealElapsed) (h : HostState E) (s : State) :
    sessionLegal ((p.session elapsed h).trace s) = true := by
  have hepoch := HostProgram.epoch_cyclesOnce htasks hothers Config.startup h
  rw [cycleCommand_startup] at hepoch
  have hcases := hepoch.cycleTrace_bind (fun x => p.loop elapsed x.1 x.2) s
  rw [Client.cycleTrace] at hcases
  unfold sessionLegal HostProgram.session
  obtain htrace | htrace | ⟨x, t, htrace⟩ := hcases
  · rw [htrace]
  · rw [htrace]; rfl
  · rw [htrace]
    exact HostProgram.loop_cycleTrace htasks hothers elapsed x.1 x.2 t

theorem HostProgram.lastEpoch_ensures (h : HostState E) {s : State} (hs : s.phase = .run) (n : Nat) :
    ((p.epoch Config.shutdown h).map fun x => SessionPoint.ended x.2).Ensures s fun point t => point.Reached n t :=
  Client.Ensures.map ((HostProgram.epoch_ensures htasks hothers engineLeads_shutdown h hs).mono
    fun _ _ ⟨hphase, _⟩ => hphase)

theorem HostProgram.loop_ensures (elapsed : List RealElapsed) {wake : Byte} (h : HostState E) {s : State}
    (hs : s.phase = .run) (hwake : wake.toNat ≤ s.params.cycleLength) :
    (p.loop elapsed wake h).Ensures s fun point t => point.Reached s.params.cycleLength t := by
  induction elapsed generalizing wake h s with
  | nil =>
    unfold HostProgram.loop
    split
    · exact HostProgram.lastEpoch_ensures htasks hothers h hs _
    · next hgoes =>
      have hpos : wake.toNat ≠ 0 := fun hzero => hgoes (BitVec.eq_of_toNat_eq hzero)
      exact Client.ensures_done ⟨hs, Nat.one_le_iff_ne_zero.mpr hpos, hwake⟩
  | cons e rest ih =>
    unfold HostProgram.loop
    split
    · exact HostProgram.lastEpoch_ensures htasks hothers h hs _
    · refine (HostProgram.epoch_ensures htasks hothers (engineLeads_realElapsed e) h hs).bind ?_
      rintro x t ⟨hphase, hparams, hle⟩
      rw [← hparams] at hle ⊢
      exact ih x.2 hphase hle

theorem HostProgram.session_ensures (elapsed : List RealElapsed) (h : HostState E) {s : State}
    (hs : s.phase = .pre) :
    (p.session elapsed h).Ensures s fun point t => point.Reached s.params.cycleLength t := by
  refine (HostProgram.epoch_ensures htasks hothers engineLeads_startup h hs).bind ?_
  rintro x t ⟨hphase, hparams, hle⟩
  rw [← hparams] at hle ⊢
  exact HostProgram.loop_ensures htasks hothers elapsed x.2 hphase hle

end Scheduler

/-- Settles O51: the engine is invoked once an epoch, which gives the order of the commands in every state; from phase
PRE the epochs lead the engine through its protocol. -/
theorem schedulerSessionDrivesTheEngine : Obligations.SchedulerSessionDrivesTheEngine := by
  intro E p before after elapsed h s htasks hothers
  refine ⟨HostProgram.session_sessionLegal htasks hothers elapsed h s, fun hpre => ?_⟩
  obtain ⟨hrefused, hreached⟩ := HostProgram.session_ensures htasks hothers elapsed h hpre
  exact ⟨hrefused, fun wake h' t hrun => hreached (.asleep wake h') t hrun,
    fun h' t hrun => hreached (.ended h') t hrun⟩

end Sys2Proof.Machine

namespace Sys2Proof.Machine

/-! ### Where the block stops (R112, R144, R200, R202) -/

/-- All that a `pwm_cycle` instruction can do: it completes, or it is refused by its own name outside its phase
(R112). -/
theorem exec_cycleFamily_cases {i : Instr} (hi : i.isCycleFamily = true) (s : State) :
    (∃ t, exec i s = .next t) ∨
    (i = .pwmCycleStartup ∧ s.phase ≠ .pre ∧ exec i s = .refused .startupOutsidePre) ∨
    ((∃ e, i = .pwmCycle e) ∧ s.phase ≠ .run ∧ exec i s = .refused .cycleOutsideRun) ∨
    (i = .pwmCycleShutdown ∧ s.phase ≠ .run ∧ exec i s = .refused .shutdownOutsideRun) := by
  cases i with
  | pwmCycleStartup =>
    by_cases hp : s.phase = .pre
    · exact .inl ⟨_, exec_pwmCycleStartup_next.mpr ⟨hp, rfl⟩⟩
    · exact .inr (.inl ⟨rfl, hp, exec_pwmCycleStartup_refused hp⟩)
  | pwmCycle e =>
    by_cases hp : s.phase = .run
    · exact .inl ⟨_, exec_pwmCycle_next.mpr ⟨hp, rfl⟩⟩
    · exact .inr (.inr (.inl ⟨⟨e, rfl⟩, hp, exec_pwmCycle_refused hp e⟩))
  | pwmCycleShutdown =>
    by_cases hp : s.phase = .run
    · exact .inl ⟨_, exec_pwmCycleShutdown_next.mpr ⟨hp, rfl⟩⟩
    · exact .inr (.inr (.inr ⟨rfl, hp, exec_pwmCycleShutdown_refused hp⟩))
  | pwmSet | pwmGet | rngPump | rngAddEntropy | rngGet => cases hi

/-- `rng_get` hangs for no maximum of 0, which needs no candidate, and from no register of 0, where every candidate is
0 (R134, R144 (a)). -/
theorem exec_rngGet_fault {m : Byte} {s : State} {f : Fault} (h : exec (.rngGet m) s = .fault f) :
    m ≠ 0 ∧ s.lfsr ≠ 0 := by
  constructor
  · rintro rfl
    cases (rngGetOfZeroPumpsOnce s).symm.trans h
  · intro hzero
    obtain ⟨-, -, -, hcompletes⟩ := lfsrStaysNonZero
    obtain ⟨-, hget⟩ := hcompletes s hzero
    obtain ⟨t, hnext, -⟩ := hget m
    cases hnext.symm.trans h

/-- All that can lead from an instruction to a fault: the hang of `rng_get` (R144, R200). -/
theorem exec_fault_cases {i : Instr} {s : State} {f : Fault} (h : exec i s = .fault f) :
    f = .rngGetNeverReturns ∧ ∃ m, i = .rngGet m ∧ m ≠ 0 ∧ s.lfsr ≠ 0 := by
  by_cases hfamily : i.isCycleFamily = true
  · obtain ⟨t, ho⟩ | ⟨-, -, ho⟩ | ⟨-, -, ho⟩ | ⟨-, -, ho⟩ := exec_cycleFamily_cases hfamily s <;> cases ho.symm.trans h
  · obtain ⟨t, hnext, -⟩ | ⟨⟨m, rfl⟩, hhang⟩ := exec_other_cases (Bool.eq_false_of_not_eq_true hfamily) s
    · cases hnext.symm.trans h
    · exact ⟨Host.Outcome.fault.inj (h.symm.trans hhang), m, rfl, exec_rngGet_fault h⟩

/-- All that can lead from an instruction to a refusal: a `pwm_cycle` instruction outside its phase (R112, R202). -/
theorem exec_refused_cases {i : Instr} {s : State} {r : Refusal} (h : exec i s = .refused r) :
    (i = .pwmCycleStartup ∧ s.phase ≠ .pre ∧ r = .startupOutsidePre) ∨
    ((∃ e, i = .pwmCycle e) ∧ s.phase ≠ .run ∧ r = .cycleOutsideRun) ∨
    (i = .pwmCycleShutdown ∧ s.phase ≠ .run ∧ r = .shutdownOutsideRun) := by
  by_cases hfamily : i.isCycleFamily = true
  · obtain ⟨t, hnext⟩ | ⟨hi, hp, ho⟩ | ⟨hi, hp, ho⟩ | ⟨hi, hp, ho⟩ := exec_cycleFamily_cases hfamily s
    · cases hnext.symm.trans h
    · exact .inl ⟨hi, hp, Host.Outcome.refused.inj (h.symm.trans ho)⟩
    · exact .inr (.inl ⟨hi, hp, Host.Outcome.refused.inj (h.symm.trans ho)⟩)
    · exact .inr (.inr ⟨hi, hp, Host.Outcome.refused.inj (h.symm.trans ho)⟩)
  · obtain ⟨t, ho, -⟩ | ⟨-, ho⟩ := exec_other_cases (Bool.eq_false_of_not_eq_true hfamily) s <;> cases ho.symm.trans h

/-- All that can lead to a refused step: a reserved word, or a command whose instruction is refused (R78, R79, R202). -/
theorem step_refused_cases {s : State} {r : Refusal} (h : step s = .refused r) :
    ∃ w rest, s.inbox = .command w :: rest ∧
      ((∃ reason, decode w = .error reason ∧ r = reservedRefusal reason) ∨
       ∃ i, decode w = .ok i ∧ exec i { s with inbox := rest } = .refused r) := by
  rcases hin : s.inbox with _ | ⟨_ | w, rest⟩
  · simp [step, State.takeInput, hin] at h
  · simp [step, State.takeInput, hin] at h
  · refine ⟨w, rest, rfl, ?_⟩
    rcases hdec : decode w with reason | i
    · exact .inl ⟨reason, rfl, Host.Outcome.refused.inj (h.symm.trans (step_of_decode_error hin hdec))⟩
    · exact .inr ⟨i, rfl, (step_of_decode_ok hin hdec).symm.trans h⟩

/-- Settles O16: the stops of the decoder and those of the instructions, together. -/
theorem stopsAreTheHangTheReservedWordsAndTheProtocol :
    Obligations.StopsAreTheHangTheReservedWordsAndTheProtocol := by
  refine ⟨fun i s f h => exec_fault_cases h, fun s r h => ?_⟩
  obtain ⟨w, rest, hin, ⟨reason, hdec, rfl⟩ | ⟨i, hdec, hexec⟩⟩ := step_refused_cases h
  · refine ⟨w, rest, hin, ?_⟩
    cases reason with
    | opcode => exact .inl ⟨hdec, rfl⟩
    | operandField => exact .inr (.inl ⟨hdec, rfl⟩)
  · refine ⟨w, rest, hin, .inr (.inr ?_)⟩
    obtain ⟨rfl, hp, hr⟩ | ⟨⟨e, rfl⟩, hp, hr⟩ | ⟨rfl, hp, hr⟩ := exec_refused_cases hexec
    · exact .inl ⟨hdec, hp, hr⟩
    · exact .inr (.inl ⟨⟨e, hdec⟩, hp, hr⟩)
    · exact .inr (.inr ⟨hdec, hp, hr⟩)

end Sys2Proof.Machine

namespace Sys2Proof.Machine

/-! ### The reset event, and the phases a step leads to without it (R38, R112, R230) -/

theorem step_of_reset {s : State} {rest : List HostInput} (hin : s.inbox = .reset :: rest) :
    step s = .next ({ s with inbox := rest } : State).resetEvent := by
  simp only [step, State.takeInput_of_inbox_cons hin]

/-- The inputs still to come are all that tells a reset block from one right after reset. -/
theorem resetEvent_channelRead (s : State) (c : Nat) : s.resetEvent.channelRead c = 0x00 :=
  resetWith_channelRead s.params c

/-- An instruction that completes keeps the phase, or takes one of the two edges PRE to RUN and RUN to HALT (R112). -/
theorem exec_next_phase_cases {i : Instr} {s t : State} (h : exec i s = .next t) :
    t.phase = s.phase ∨ (s.phase = .pre ∧ t.phase = .run) ∨ (s.phase = .run ∧ t.phase = .halt) := by
  obtain ⟨_, _, -, rfl⟩ | ⟨_, -, rfl⟩ | ⟨-, hp, rfl⟩ | ⟨-, hp, rfl⟩ | ⟨_, -, hp, rfl⟩ | ⟨-, _, _, rfl⟩ :=
    exec_next_cases h
  · exact .inl rfl
  · exact .inl rfl
  · exact .inr (.inl ⟨hp, rfl⟩)
  · exact .inr (.inr ⟨hp, rfl⟩)
  · exact .inl hp.symm
  · exact .inl rfl

/-- A step that did not take the reset event moves between phases as an instruction does (R112, R230, R232). -/
theorem step_next_phase_cases {s t : State} (h : step s = .next t) :
    (∃ rest, s.inbox = .reset :: rest) ∨
    t.phase = s.phase ∨ (s.phase = .pre ∧ t.phase = .run) ∨ (s.phase = .run ∧ t.phase = .halt) := by
  obtain ⟨-, rfl⟩ | ⟨rest, hin, -⟩ | ⟨_, _, _, -, -, hexec⟩ := step_next_cases h
  · exact .inr (.inl rfl)
  · exact .inl ⟨rest, hin⟩
  · have hmoves := exec_next_phase_cases hexec
    exact .inr hmoves

/-- Settles O8: the reset event gives the reset values, and no other step takes an edge out of HALT or from RUN back
to PRE. -/
theorem resetEventResetsAndAloneLeavesHalt : Obligations.ResetEventResetsAndAloneLeavesHalt := by
  refine ⟨fun s rest hin => ⟨_, step_of_reset hin, resetEvent_channelRead _, rfl, rfl, rfl, rfl, rfl⟩,
    fun s t h hs ht => ?_, fun s t h hs ht => ?_⟩
  · obtain hreset | hkept | ⟨hpre, -⟩ | ⟨hrun, -⟩ := step_next_phase_cases h
    · exact hreset
    · exact absurd (hkept.trans hs) ht
    · cases hs.symm.trans hpre
    · cases hs.symm.trans hrun
  · obtain hreset | hkept | ⟨hpre, -⟩ | ⟨-, hhalt⟩ := step_next_phase_cases h
    · exact hreset
    · cases ht.symm.trans (hkept.trans hs)
    · cases hs.symm.trans hpre
    · cases ht.symm.trans hhalt

end Sys2Proof.Machine

namespace Sys2Proof.Machine

/-! ### The block waits (R11, R232) -/

theorem State.takeInput_of_inbox_nil {s : State} (hin : s.inbox = []) : s.takeInput = none := by
  rw [State.takeInput, hin]

/-- Settles O7. -/
theorem waitingBlockDoesNotChange : Obligations.WaitingBlockDoesNotChange := by
  intro s hin
  simp only [step, State.takeInput_of_inbox_nil hin]

/-! ### The parameters are for life (R5, R20) -/

/-- Settles O12: an instruction writes no parameter, and the reset event keeps them. -/
theorem stepKeepsTheParameters : Obligations.StepKeepsTheParameters := by
  intro s t h
  obtain ⟨-, rfl⟩ | ⟨_, -, rfl⟩ | ⟨_, i, rest, -, -, hexec⟩ := step_next_cases h
  · rfl
  · rfl
  · obtain ⟨-, -, -, hparams, -⟩ := elementsAreWrittenByTheirInstructionsAlone i _ t hexec
    exact hparams

end Sys2Proof.Machine

namespace Sys2Proof.Machine

/-! ### The state invariant: what each update of the state needs to keep it (R26, R27, R38, R50) -/

/-- The invariant speaks of the PWM Engine's elements and the parameters alone: neither the register, nor the inputs to
come, nor the result has a part in it. -/
theorem State.Inv.congr {s t : State} (hs : s.Inv) (hduty : t.duty = s.duty) (htick : t.tick = s.tick)
    (hpin : t.pin = s.pin) (hphase : t.phase = s.phase) (hparams : t.params = s.params) : t.Inv where
  duty_wf := hduty ▸ hs.duty_wf
  duty_backed := by rw [hduty, hparams]; exact hs.duty_backed
  tick_lt := by rw [htick, hparams]; exact hs.tick_lt
  pin_count := by rw [hpin, hparams]; exact hs.pin_count
  pins_driven := by rw [hphase, hpin]; exact hs.pins_driven
  pins_released := by rw [hphase, hpin]; exact hs.pins_released
  pre_tick := by rw [hphase, htick]; exact hs.pre_tick

theorem State.Inv.answer {s : State} (hs : s.Inv) (v : Byte) : (s.answer v).Inv := hs.congr rfl rfl rfl rfl rfl

theorem State.Inv.setLfsr {s : State} (hs : s.Inv) (r : Word32) : (s.setLfsr r).Inv := hs.congr rfl rfl rfl rfl rfl

theorem State.Inv.withInbox {s : State} (hs : s.Inv) (rest : List HostInput) : ({ s with inbox := rest } : State).Inv :=
  hs.congr rfl rfl rfl rfl rfl

theorem Memory.write_backed {m : Memory} {n c : Nat} (hm : ∀ e ∈ m, e.1 < n) (hc : c < n) (v : Byte) :
    ∀ e ∈ Memory.write m c v, e.1 < n := by
  intro e he
  obtain ⟨rfl, -⟩ | ⟨hmem, -⟩ := Memory.mem_write he
  · exact hc
  · exact hm e hmem

/-- A write to a backed index keeps the memory canonical and backed; a write to any other index is none (R52). -/
theorem State.Inv.channelWrite {s : State} (hs : s.Inv) (c : Nat) (v : Byte) : (s.channelWrite c v).Inv := by
  by_cases hc : c < s.params.numChannels
  · have hduty : (s.channelWrite c v).duty = Memory.write s.duty c v := if_pos hc
    exact { hs with
      duty_wf := hduty ▸ Memory.write_wf hs.duty_wf c v
      duty_backed := hduty ▸ Memory.write_backed hs.duty_backed hc v }
  · rw [channelWrite_unbacked hc]
    exact hs

/-- A tick of the cycle with its pins, in phase RUN, whatever the phase before it (R104, R108). -/
theorem State.Inv.runTick {s : State} (hs : s.Inv) {k : Nat} (hk : k < s.params.cycleLength) : (s.runTick k).Inv where
  duty_wf := hs.duty_wf
  duty_backed := hs.duty_backed
  tick_lt := hk
  pin_count := pinsAt_length s k
  pins_driven := fun _ _ hp => pinsAt_driven hp
  pins_released := fun hne => absurd rfl hne
  pre_tick := fun hpre => by cases hpre

/-- The pins released, in phase HALT, the tick kept (R110). -/
theorem State.Inv.releasePins {s : State} (hs : s.Inv) : s.releasePins.Inv where
  duty_wf := hs.duty_wf
  duty_backed := hs.duty_backed
  tick_lt := hs.tick_lt
  pin_count := List.length_replicate
  pins_driven := fun hrun => by cases hrun
  pins_released := fun _ _ hp => List.eq_of_mem_replicate hp
  pre_tick := fun hpre => by cases hpre

/-! ### The state invariant holds at reset and every step keeps it -/

theorem resetWith_inv (p : Params) : (State.resetWith p).Inv where
  duty_wf := ⟨.nil, by simp⟩
  duty_backed := by simp
  tick_lt := cycleLength_pos p
  pin_count := List.length_replicate
  pins_driven := fun hrun => by cases hrun
  pins_released := fun _ _ hp => List.eq_of_mem_replicate hp
  pre_tick := fun _ => rfl

/-- Settles O10: `State.reset` is the reset state of the implementation's own parameters. -/
theorem resetMeetsTheInvariant : Obligations.ResetMeetsTheInvariant :=
  ⟨resetWith_inv, resetWith_inv Config.params⟩

/-- The reset event establishes the invariant from any state (R230). -/
theorem resetEvent_inv (s : State) : s.resetEvent.Inv := (resetWith_inv s.params).congr rfl rfl rfl rfl rfl

/-- Every instruction that completes keeps the invariant. -/
theorem exec_keeps_inv {i : Instr} {s t : State} (hs : s.Inv) (h : exec i s = .next t) : t.Inv := by
  obtain ⟨ch, d, -, rfl⟩ | ⟨ch, -, rfl⟩ | ⟨-, -, rfl⟩ | ⟨-, -, rfl⟩ | ⟨e, -, -, rfl⟩ | ⟨-, r, v, rfl⟩ :=
    exec_next_cases h
  · exact (hs.channelWrite (channelIndex ch) d).answer noResult
  · exact hs.answer _
  · exact hs.runTick (cycleLength_pos s.params)
  · exact hs.releasePins.answer Config.shutdown
  · exact hs.runTick (tickAfter_lt s e)
  · exact (hs.setLfsr r).answer v

/-- Settles O11: waiting changes nothing, the reset event establishes the invariant, and an instruction keeps it. -/
theorem stepKeepsTheInvariant : Obligations.StepKeepsTheInvariant := by
  intro s t hs h
  obtain ⟨-, rfl⟩ | ⟨rest, -, rfl⟩ | ⟨_, _, rest, -, -, hexec⟩ := step_next_cases h
  · exact hs
  · exact resetEvent_inv _
  · exact exec_keeps_inv (hs.withInbox rest) hexec

end Sys2Proof.Machine
